-- ==== Sys2Proof/Word.lean ====
section
/-! DEFINITION. The word types of the engine: the 8-bit byte of registers, flags and memory cells (R20, R27, R30) and
the 9-bit program counter (R25, decision D1). -/

namespace Sys2Proof

/-- An 8-bit value, always read as unsigned (R7, R20). -/
abbrev Byte := BitVec 8

/-- The program counter: 9 bits, so that an advance past address 255 is representable (R25). -/
abbrev Pc := BitVec 9

/-- A general register's index, 0 to 7 (R20). -/
abbrev RegIdx := Fin 8

end Sys2Proof
end

