-- ==== Sys2Proof/Config.lean ====
section
/-! DEFINITION. The implementation parameters of R6. Each is fixed by the spec but TRACE_ENABLED, which no rule reads. -/

namespace Sys2Proof

/-- MEM_SIZE (R6): 256 cells, addresses 0 to 255. -/
abbrev Config.memSize : Nat := 256

/-- NUM_REGS (R6): 8 general registers. -/
abbrev Config.numRegs : Nat := 8

/-- SP_REG (R6, R21): R7 is the stack pointer. -/
abbrev Config.spReg : RegIdx := 7

/-- SP_RESET (R6, R21): the value of R7 at reset. -/
abbrev Config.spReset : Byte := 0xF4#8

/-- What a cell reads as that nothing has written since reset (R30, R45, R230). -/
abbrev Config.unwrittenCell : Byte := 0x00#8

/-- MAX_INSN_LEN (R6): the longest instruction, in bytes. -/
abbrev Config.maxInsnLen : Nat := 3

/-- TRACE_ENABLED (R6, R34, D15): left open by the spec, so it has no body here; no rule and no step reads it
(log entry 10). -/
opaque Config.traceEnabled : Bool

end Sys2Proof
end

