-- ==== Sys2Proof/Syntax.lean ====
section
/-! DEFINITION. The instructions: one constructor per row of spec/opcode_table.json (R2, R66, R91), the row names that
the dispatch table answers, and the four formats (R61). -/

namespace Sys2Proof

/-- The four instruction formats (R61). -/
inductive Format where
  /-- F0: the opcode byte alone. -/
  | f0
  /-- F1R: one register operand byte. -/
  | f1r
  /-- F2RR: two register operand bytes. -/
  | f2rr
  /-- F2RI: a register operand byte and an immediate byte. -/
  | f2ri
  deriving DecidableEq, Repr

/-- A row of the dispatch table (R66), named by its mnemonic, without its operands. -/
inductive Op where
  | hlt | ldi | prn | mul | cmp | jmp | jeq | jne | push | pop
  deriving DecidableEq, Repr

/-- The ten instructions with their decoded operands (R66, R91). A register operand is an index 0 to 7 and the
immediate is a byte, so every term is an instruction that some bytes encode (R63, R64). -/
inductive Instr where
  /-- HLT: halt the engine (R100). -/
  | hlt
  /-- LDI rA, imm8: load an immediate (R102). -/
  | ldi (rA : RegIdx) (imm8 : Byte)
  /-- PRN rA: emit a register (R104). -/
  | prn (rA : RegIdx)
  /-- MUL rA, rB: multiply modulo 256 (R125). -/
  | mul (rA rB : RegIdx)
  /-- CMP rA, rB: compare, unsigned (R126). -/
  | cmp (rA rB : RegIdx)
  /-- JMP rA: jump (R140). -/
  | jmp (rA : RegIdx)
  /-- JEQ rA: jump if E is set (R142). -/
  | jeq (rA : RegIdx)
  /-- JNE rA: jump if E is clear (R144). -/
  | jne (rA : RegIdx)
  /-- PUSH rA: push a register (R160). -/
  | push (rA : RegIdx)
  /-- POP rA: pop into a register (R162). -/
  | pop (rA : RegIdx)
  deriving DecidableEq, Repr

end Sys2Proof
end

