-- ==== Sys2Proof/WellFormed.lean ====
section
/-! DEFINITION. When operand bytes fit a format (R61, R63): as many as the format has, and bits 7..3 of a register
byte zero. An `Instr` needs no check of its own: its register fields are `Fin 8` and its immediate is a byte, and
Laws/Decode.lean shows that the bytes it encodes to always fit. -/

namespace Sys2Proof

/-- A register operand byte names a register: 0 to 7 (R63). -/
def isRegByte (b : Byte) : Bool := decide (b.toNat < Config.numRegs)

/-- The operand bytes fit the format: their number, and every register byte below 8 (R61, R63). The immediate byte of
F2RI has no illegal value (R64). -/
def Format.admits : Format → List Byte → Bool
  | .f0, [] => true
  | .f1r, [b1] => isRegByte b1
  | .f2rr, [b1, b2] => isRegByte b1 && isRegByte b2
  | .f2ri, [b1, _] => isRegByte b1
  | .f0, _ => false
  | .f1r, _ => false
  | .f2rr, _ => false
  | .f2ri, _ => false

end Sys2Proof
end

