-- ==== Sys2Proof/Decode.lean ====
section
/-! DEFINITION. The dispatch table (R66), the decoder, total on any bytes and rejecting by name (R62 to R64, R68, R82,
R84), and the encoder written from the same table (R61, R71). -/

namespace Sys2Proof

/-- The opcode column of the dispatch table (R66). -/
def Op.opcode : Op → Byte
  | .hlt => 0x01#8
  | .ldi => 0x82#8
  | .prn => 0x47#8
  | .mul => 0xA2#8
  | .cmp => 0xA7#8
  | .jmp => 0x54#8
  | .jeq => 0x55#8
  | .jne => 0x56#8
  | .push => 0x45#8
  | .pop => 0x46#8

/-- The format column of the dispatch table (R66). -/
def Op.format : Op → Format
  | .hlt => .f0
  | .ldi => .f2ri
  | .prn => .f1r
  | .mul => .f2rr
  | .cmp => .f2rr
  | .jmp => .f1r
  | .jeq => .f1r
  | .jne => .f1r
  | .push => .f1r
  | .pop => .f1r

/-- The number of operand bytes of a format (R60, R61). -/
def Format.operandCount : Format → Nat
  | .f0 => 0
  | .f1r => 1
  | .f2rr => 2
  | .f2ri => 2

/-- The whole length of an instruction in bytes: 1 + the operand bytes (R9, R60). -/
def Op.len (o : Op) : Nat := 1 + o.format.operandCount

/-- The ten rows of the dispatch table, in its order (R66). -/
def allOps : List Op := [.hlt, .ldi, .prn, .mul, .cmp, .jmp, .jeq, .jne, .push, .pop]

/-- The look-up of a whole opcode byte in the dispatch table (R62, R66, R82); none for the 246 illegal bytes (R68). -/
def opOf (b : Byte) : Option Op := allOps.find? (fun o => o.opcode == b)

/-- Why bytes are no instruction, by name. -/
inductive DecodeError where
  /-- There is no opcode byte at all. -/
  | noOpcode
  /-- The first byte is not in the dispatch table (R68, R82). -/
  | illegalOpcode (opcode : Byte)
  /-- The bytes end before operand byte number `index` (counted from 1, R83). -/
  | missingOperand (index : Nat)
  /-- A register operand byte of 8 or more (R63). -/
  | registerOutOfRange (value : Byte)
  deriving DecidableEq, Repr

/-- decodeReg of R63: the byte is the index itself, without masking. -/
def decodeReg (b : Byte) : Except DecodeError RegIdx :=
  if h : b.toNat < Config.numRegs then .ok ⟨b.toNat, h⟩ else .error (.registerOutOfRange b)

/-- Operands of format F1R (R84). -/
def decodeR (mk : RegIdx → Instr) : List Byte → Except DecodeError Instr
  | [] => .error (.missingOperand 1)
  | b1 :: _ => do
    let rA ← decodeReg b1
    return mk rA

/-- Operands of format F2RR: b1 before b2 (R84). -/
def decodeRR (mk : RegIdx → RegIdx → Instr) : List Byte → Except DecodeError Instr
  | [] => .error (.missingOperand 1)
  | [_] => .error (.missingOperand 2)
  | b1 :: b2 :: _ => do
    let rA ← decodeReg b1
    let rB ← decodeReg b2
    return mk rA rB

/-- Operands of format F2RI: the immediate is not checked (R64, R84). -/
def decodeRI (mk : RegIdx → Byte → Instr) : List Byte → Except DecodeError Instr
  | [] => .error (.missingOperand 1)
  | [_] => .error (.missingOperand 2)
  | b1 :: b2 :: _ => do
    let rA ← decodeReg b1
    return mk rA b2

/-- The operands of a row of the table, read from the bytes after its opcode (R61, R84). -/
def decodeOperands : Op → List Byte → Except DecodeError Instr
  | .hlt, _ => .ok .hlt
  | .ldi, bs => decodeRI .ldi bs
  | .prn, bs => decodeR .prn bs
  | .mul, bs => decodeRR .mul bs
  | .cmp, bs => decodeRR .cmp bs
  | .jmp, bs => decodeR .jmp bs
  | .jeq, bs => decodeR .jeq bs
  | .jne, bs => decodeR .jne bs
  | .push, bs => decodeR .push bs
  | .pop, bs => decodeR .pop bs

/-- The decoder: the instruction at the head of any bytes, with the bytes after it, or why there is none
(R62, R68, R82 to R84). -/
def decode : List Byte → Except DecodeError (Instr × List Byte)
  | [] => .error .noOpcode
  | b :: rest =>
    match opOf b with
    | none => .error (.illegalOpcode b)
    | some o => do
      let i ← decodeOperands o rest
      return (i, rest.drop o.format.operandCount)

/-- The row of the dispatch table an instruction belongs to. -/
def Instr.op : Instr → Op
  | .hlt => .hlt
  | .ldi _ _ => .ldi
  | .prn _ => .prn
  | .mul _ _ => .mul
  | .cmp _ _ => .cmp
  | .jmp _ => .jmp
  | .jeq _ => .jeq
  | .jne _ => .jne
  | .push _ => .push
  | .pop _ => .pop

/-- A register operand as its byte `00000rrr` (R61). -/
def regByte (r : RegIdx) : Byte := BitVec.ofNat 8 r.val

/-- The operand bytes of an instruction, in address order (R61, R71). -/
def Instr.operands : Instr → List Byte
  | .hlt => []
  | .ldi rA imm8 => [regByte rA, imm8]
  | .prn rA => [regByte rA]
  | .mul rA rB => [regByte rA, regByte rB]
  | .cmp rA rB => [regByte rA, regByte rB]
  | .jmp rA => [regByte rA]
  | .jeq rA => [regByte rA]
  | .jne rA => [regByte rA]
  | .push rA => [regByte rA]
  | .pop rA => [regByte rA]

/-- The encoder: the bytes of an instruction, the opcode first (R43, R61, R71). -/
def encode (i : Instr) : List Byte := i.op.opcode :: i.operands

/-- The bytes of a number whose bit 0 is the least significant bit of the first byte, each later byte's bits counting on
from it: the numbering of opcode_table.json laid out as memory holds it (R43). -/
def tableBytes : (count w : Nat) → List Byte
  | 0, _ => []
  | count + 1, w => BitVec.ofNat 8 w :: tableBytes count (w / 256)

/-- An instruction word of `nbits` bits in the longest instruction's bytes: every bit above `nbits` is 0. -/
def wordBytes (nbits w : Nat) : List Byte := tableBytes Config.maxInsnLen (w % 2 ^ nbits)

/-- What the decoder reads from a word numbered as opcode_table.json numbers it; none where it refuses. -/
def decodeTableWord (nbits w : Nat) : Option Instr :=
  match decode (wordBytes nbits w) with
  | .ok (i, _) => some i
  | .error _ => none

end Sys2Proof
end

