-- ==== Sys2Proof/Machine/State.lean ====
section
/-! DEFINITION. The whole state of one engine: registers, pc, FL, memory, run status, output sink (10_state.md), its
reset value (R230), and the reasons a step can stop. -/

namespace Sys2Proof.Machine

/-- What an OutOfRange error is about (R200). -/
inductive RangeKind where
  /-- A memory address of 256 or more (R40). -/
  | memory
  /-- A register operand byte of 8 or more (R63). -/
  | register
  deriving DecidableEq, Repr

/-- The operation select of the ALU (R120). The spec keeps its encoding internal; `other` stands for every select that
is not one of the ALU's four, by a number of its own (log entry 5). -/
inductive AluSelect where
  | add | sub | mul | cmp
  /-- A select the ALU does not implement (R127). -/
  | other (select : Nat)
  deriving DecidableEq, Repr

/-- The info record of a ProgramLoadError: 'the failing line or the image length' (R200), or a missing source (R218).
Log entry 6. -/
inductive LoadInfo where
  /-- A line that is no literal, comment or blank (R72), counted from 1. -/
  | line (number : Nat)
  /-- An image longer than memory (R218, R232). -/
  | imageLength (length : Nat)
  /-- There is no program source (R218). -/
  | missingSource
  deriving DecidableEq, Repr

/-- The error taxonomy with the info each error records (R200). -/
inductive Error where
  /-- OutOfRange: raised by the opcode fetch, the operand fetch and the register-operand decode (R201). -/
  | outOfRange (kind : RangeKind) (value : Nat)
  /-- IllegalInstruction: raised by the decode (R202), with the instruction's pc and its opcode byte. -/
  | illegalInstruction (pc : Pc) (opcode : Byte)
  /-- UnsupportedALUOp: raised by the ALU; no program reaches it (R127). -/
  | unsupportedALUOp (select : AluSelect)
  /-- ProgramLoadError: the loader's, before the first step (R218). -/
  | programLoadError (info : LoadInfo)
  deriving DecidableEq, Repr

/-- The run status (R32). -/
inductive Status where
  | running
  | halted
  | faulted (error : Error)
  deriving DecidableEq, Repr

/-- Memory (R30): the cells that differ from what an unwritten cell reads as, by address. Operations keep addresses
rising and below 256 (`Memory.wf`, log entry 11). -/
abbrev Memory := List Host.Cell

/-- The state of one engine: 'Nothing else is architectural' (10_state.md). -/
structure State where
  /-- x[0..7] (R20); x[7] is the stack pointer (R21). -/
  regs : Vector Byte 8
  /-- The address of the next opcode byte (R25). -/
  pc : Pc
  /-- FL: bit 2 L, bit 1 G, bit 0 E, bits 7..3 zero (R27). -/
  fl : Byte
  /-- M[0..255] (R30). -/
  mem : Memory
  /-- The run status, visible to the host only (R29, R32). -/
  status : Status
  /-- The output sink, oldest value first (R31). -/
  out : List Byte
  deriving DecidableEq, Repr

/-- The machine right after reset: every element as R230 lists it. -/
def State.reset : State where
  regs := #v[0x00#8, 0x00#8, 0x00#8, 0x00#8, 0x00#8, 0x00#8, 0x00#8, Config.spReset]
  pc := 0#9
  fl := 0x00#8
  mem := []
  status := .running
  out := []

/-- Why there is no next state. An error of a program is not among these: raising it is a step, to the status Faulted
(R203, log entry 1). -/
inductive Fault where
  /-- A step was asked of a Halted engine, which has none (R80, R216). Raised by `step`; safe: the hardware takes no step
  either. -/
  | halted
  /-- A step was asked of an engine that an error has stopped (R80, R205); it surfaces that error to the caller (R203).
  Raised by `step`; safe: the hardware takes no step either. -/
  | faulted (error : Error)
  deriving DecidableEq, Repr

/-- Why an instruction has no meaning here. -/
inductive Refusal where
  /-- An instruction of the opcode table that the model gives no meaning. Raised by no arm: all ten have theirs. Safe:
  it stops. -/
  | notModelled (mnemonic : String)
  deriving DecidableEq, Repr

end Sys2Proof.Machine
end

