-- ==== Sys2Proof/Machine/Ops.lean ====
section
/-! DEFINITION. The named operations every meaning is built from: memory access (R40), registers (R8, R20), the program
counter (R86), the output sink (R31), halting (R100), and raising an error (R203, R204), which is this hardware's one way
of taking an exception. There is no return from one: Faulted is terminal (R205). -/

namespace Sys2Proof.Machine

/-! ## Memory -/

/-- The byte listed for an address, or what an unwritten cell reads as (R45, R48). -/
def Memory.readCell (a : Nat) : Memory → Byte
  | [] => Config.unwrittenCell
  | (b, v) :: m => if b = a then v else Memory.readCell a m

/-- Memory with no cell listed for the address. -/
def Memory.unlist (a : Nat) (m : Memory) : Memory := m.filter (fun c => c.1 != a)

/-- A cell put before the first listed cell of a higher address. -/
def Memory.place (a : Nat) (v : Byte) : Memory → Memory
  | [] => [(a, v)]
  | (b, w) :: m => if a < b then (a, v) :: (b, w) :: m else (b, w) :: Memory.place a v m

/-- The memory after `M[a] <- v`, in its one canonical form: a value that an unwritten cell reads as is not listed. -/
def Memory.writeCell (a : Nat) (v : Byte) (m : Memory) : Memory :=
  if v = Config.unwrittenCell then m.unlist a else (m.unlist a).place a v

/-- The listed addresses rise strictly from `low`, stay below 256, and no listed value is that of an unwritten cell. -/
def Memory.wfFrom (low : Nat) : Memory → Bool
  | [] => true
  | (a, v) :: m =>
    decide (low ≤ a) && decide (a < Config.memSize) && (v != Config.unwrittenCell) && Memory.wfFrom (a + 1) m

/-- The canonical form of memory. -/
def Memory.wf (m : Memory) : Bool := Memory.wfFrom 0 m

/-- MemRead(addr, 1) of R40: an address of 256 or more raises OutOfRange; none is wrapped or clamped. -/
def memRead (m : Memory) (a : Nat) : Except Error Byte :=
  if Config.memSize ≤ a then .error (.outOfRange .memory a) else .ok (m.readCell a)

/-- MemWrite(addr, 1, v) of R40, with the same range check. -/
def memWrite (m : Memory) (a : Nat) (v : Byte) : Except Error Memory :=
  if Config.memSize ≤ a then .error (.outOfRange .memory a) else .ok (m.writeCell a v)

/-! ## Registers, pc, flags, output, status -/

/-- Read of `x[r]` (R8). -/
def State.readReg (s : State) (r : RegIdx) : Byte := s.regs[r]

/-- `x[r] <- v` (R8, R23): no register is hard-wired (R20). -/
def State.writeReg (s : State) (r : RegIdx) (v : Byte) : State := { s with regs := s.regs.set r v }

/-- The stack pointer, which is `x[7]` (R21). -/
def State.sp (s : State) : Byte := s.readReg Config.spReg

/-- `FL <- v` (R8). -/
def State.writeFl (s : State) (v : Byte) : State := { s with fl := v }

/-- The sequential advance by the whole length of the instruction (R86), 9 bits, no reduction modulo 256. -/
def State.advance (s : State) (o : Op) : State := { s with pc := s.pc + BitVec.ofNat 9 o.len }

/-- `pc <- target`: the zero-extended 8-bit value, with no sequential advance (R86, R140, R141). -/
def State.jump (s : State) (target : Byte) : State := { s with pc := target.setWidth 9 }

/-- Emit(v): append to the output sink (R8, R31). -/
def State.emit (s : State) (v : Byte) : State := { s with out := s.out ++ [v] }

/-- halt (R8, R100): only the status changes; pc keeps the address of the HLT byte. -/
def State.halt (s : State) : State := { s with status := .halted }

/-- raise E(info) (R8, R203, R204): the status becomes Faulted(E, info) and nothing else changes: no register saves
anything, pc stays at the instruction, control goes to no handler (R205, R207). -/
def State.raise (s : State) (e : Error) : State := { s with status := .faulted e }

/-- What a computation that may raise an error makes of the state it began in: its result, or that state with the error
raised, everything else written so far dropped (R204). -/
def orRaise (s : State) (r : Except Error State) : Host.Outcome State Fault Refusal :=
  match r with
  | .ok t => .next t
  | .error e => .next (s.raise e)

/-! ## Error records -/

/-- The numeric cause codes (R200). -/
def Error.code : Error → Nat
  | .outOfRange _ _ => 1
  | .illegalInstruction _ _ => 2
  | .unsupportedALUOp _ => 3
  | .programLoadError _ => 4

/-- The cause code of a status; 0 means no error (R200). -/
def Status.code : Status → Nat
  | .running => 0
  | .halted => 0
  | .faulted e => e.code

end Sys2Proof.Machine
end

