-- ==== Sys2Proof/Machine/Flags.lean ====
section
/-! DEFINITION. The flags register (R27) and the one flag computation of the engine, the ALU's unsigned three-way
comparison (R124). -/

namespace Sys2Proof.Machine

/-- FL with E alone (R27). -/
def flE : Byte := 0b00000001#8

/-- FL with G alone (R27). -/
def flG : Byte := 0b00000010#8

/-- FL with L alone (R27). -/
def flL : Byte := 0b00000100#8

/-- Bit 0 of FL: equal (R27). -/
def State.flagE (s : State) : Bool := s.fl.getLsbD 0

/-- Bit 1 of FL: greater than (R27). -/
def State.flagG (s : State) : Bool := s.fl.getLsbD 1

/-- Bit 2 of FL: less than (R27). -/
def State.flagL (s : State) : Bool := s.fl.getLsbD 2

/-- The flags value of a comparison, unsigned; bits 7..3 are 0 (R124, D5). -/
def compareFlags (a b : Byte) : Byte :=
  if a = b then flE else if a.toNat < b.toNat then flL else flG

end Sys2Proof.Machine
end

