-- ==== Sys2Proof/Machine/Alu.lean ====
section
/-! DEFINITION. The ALU unit with its four functions (R120 to R124, R127), and MUL and CMP (R125, R126). -/

namespace Sys2Proof.Machine

/-- What the ALU returns: an 8-bit result, or a flags value (R120). -/
inductive AluResult where
  | value (v : Byte)
  | flags (v : Byte)
  deriving DecidableEq, Repr

/-- alu(ADD, a, b) (R121): no opcode selects it. -/
def aluAdd (a b : Byte) : Byte := a + b

/-- alu(SUB, a, b) (R122): no opcode selects it. -/
def aluSub (a b : Byte) : Byte := a - b

/-- alu(MUL, a, b) (R123): the low 8 bits of the product. -/
def aluMul (a b : Byte) : Byte := a * b

/-- The ALU (R120): its four functions, and UnsupportedALUOp for any other select (R127). -/
def alu (f : AluSelect) (a b : Byte) : Except Error AluResult :=
  match f with
  | .add => .ok (.value (aluAdd a b))
  | .sub => .ok (.value (aluSub a b))
  | .mul => .ok (.value (aluMul a b))
  | .cmp => .ok (.flags (compareFlags a b))
  | .other n => .error (.unsupportedALUOp (.other n))

/-- Where an ALU result goes: a value into the first register, a flags value into FL (R120). -/
def State.writeAlu (s : State) (rA : RegIdx) : AluResult → State
  | .value v => s.writeReg rA v
  | .flags v => s.writeFl v

/-- A register-to-register ALU operation (R120): both operands are read before the write (R237); then the advance. -/
def aluExecute (o : Op) (f : AluSelect) (rA rB : RegIdx) (s : State) : Host.Outcome State Fault Refusal :=
  orRaise s do
    let r ← alu f (s.readReg rA) (s.readReg rB)
    return (s.writeAlu rA r).advance o

/-- MUL rA, rB (R125). -/
def execMul (rA rB : RegIdx) (s : State) : Host.Outcome State Fault Refusal :=
  aluExecute .mul .mul rA rB s

/-- CMP rA, rB (R126). -/
def execCmp (rA rB : RegIdx) (s : State) : Host.Outcome State Fault Refusal :=
  aluExecute .cmp .cmp rA rB s

end Sys2Proof.Machine
end

