-- ==== Sys2Proof/Machine/Branch.lean ====
section
/-! DEFINITION. JMP, JEQ, JNE (43_branch.md). -/

namespace Sys2Proof.Machine

/-- A jump to the register's value if the condition holds, else the advance (R86, R141). -/
def branchIf (taken : Bool) (o : Op) (rA : RegIdx) (s : State) : State :=
  if taken then s.jump (s.readReg rA) else s.advance o

/-- JMP rA (R140). -/
def execJmp (rA : RegIdx) (s : State) : Host.Outcome State Fault Refusal :=
  .next (s.jump (s.readReg rA))

/-- JEQ rA (R142): taken if bit 0 of FL is 1. -/
def execJeq (rA : RegIdx) (s : State) : Host.Outcome State Fault Refusal :=
  .next (branchIf s.flagE .jeq rA s)

/-- JNE rA (R144): taken if bit 0 of FL is 0. -/
def execJne (rA : RegIdx) (s : State) : Host.Outcome State Fault Refusal :=
  .next (branchIf (!s.flagE) .jne rA s)

end Sys2Proof.Machine
end

