-- ==== Sys2Proof/Machine/HaltLoadPrint.lean ====
section
/-! DEFINITION. HLT, LDI, PRN (41_halt_load_print.md). -/

namespace Sys2Proof.Machine

/-- HLT (R100): status becomes Halted; pc is not advanced. -/
def execHlt (s : State) : Host.Outcome State Fault Refusal :=
  .next s.halt

/-- LDI rA, imm8 (R102): `x[rA] <- imm8`, then the advance. -/
def execLdi (rA : RegIdx) (imm8 : Byte) (s : State) : Host.Outcome State Fault Refusal :=
  .next ((s.writeReg rA imm8).advance .ldi)

/-- PRN rA (R104): `Emit(x[rA])`, then the advance. -/
def execPrn (rA : RegIdx) (s : State) : Host.Outcome State Fault Refusal :=
  .next ((s.emit (s.readReg rA)).advance .prn)

end Sys2Proof.Machine
end

