-- ==== Sys2Proof/Machine/Stack.lean ====
section
/-! DEFINITION. PUSH and POP (44_stack.md). The statements of each run in the order the rule writes them (R237, D6). -/

namespace Sys2Proof.Machine

/-- The state after the first statement of PUSH: `x[7] <- (x[7] - 1) mod 256` (R160). -/
def State.decSp (s : State) : State := s.writeReg Config.spReg (s.sp - 1#8)

/-- The state after `x[7] <- (x[7] + 1) mod 256` (R162). -/
def State.incSp (s : State) : State := s.writeReg Config.spReg (s.sp + 1#8)

/-- The address PUSH stores to: the decremented stack pointer (R160). -/
def pushAddr (s : State) : Nat := s.decSp.sp.toNat

/-- PUSH rA (R160): decrement, then `MemWrite(x[7], 1, x[rA])` with rA read after the decrement, then the advance. -/
def execPush (rA : RegIdx) (s : State) : Host.Outcome State Fault Refusal :=
  orRaise s do
    let m ← memWrite s.mem (pushAddr s) (s.decSp.readReg rA)
    return { s.decSp with mem := m }.advance .push

/-- POP rA (R162): `x[rA] <- MemRead(x[7], 1)`, then the increment, which reads x[7] after that write, then the
advance. -/
def execPop (rA : RegIdx) (s : State) : Host.Outcome State Fault Refusal :=
  orRaise s do
    let v ← memRead s.mem s.sp.toNat
    return ((s.writeReg rA v).incSp).advance .pop

end Sys2Proof.Machine
end

