-- ==== Sys2Proof/Machine/Dispatch.lean ====
section
/-! DEFINITION. The dispatch of an instruction to its meaning: a closed mapping (R91). -/

namespace Sys2Proof.Machine

def exec (i : Instr) (s : State) : Host.Outcome State Fault Refusal :=
  match i with
  | .hlt => Sys2Proof.Machine.execHlt s
  | .ldi rA imm8 => Sys2Proof.Machine.execLdi rA imm8 s
  | .prn rA => Sys2Proof.Machine.execPrn rA s
  | .mul rA rB => Sys2Proof.Machine.execMul rA rB s
  | .cmp rA rB => Sys2Proof.Machine.execCmp rA rB s
  | .jmp rA => Sys2Proof.Machine.execJmp rA s
  | .jeq rA => Sys2Proof.Machine.execJeq rA s
  | .jne rA => Sys2Proof.Machine.execJne rA s
  | .push rA => Sys2Proof.Machine.execPush rA s
  | .pop rA => Sys2Proof.Machine.execPop rA s

end Sys2Proof.Machine
end

