-- ==== Sys2Proof/Machine/Operands.lean ====
section
/-! DEFINITION. Fetch and decode of one instruction from memory: the phases of R81 to R84, in the order of R206. The
operands of this engine have no addressing modes (R65): a register index, or the immediate byte. -/

namespace Sys2Proof.Machine

/-- The operand bytes at consecutive addresses from `a`, each with the range check, in address order (R83). -/
def fetchBytes (m : Memory) (a : Nat) : (count : Nat) → Except Error (List Byte)
  | 0 => .ok []
  | count + 1 => do
    let b ← memRead m a
    let rest ← fetchBytes m (a + 1) count
    return b :: rest

/-- The machine's error for what the decoder reports of the bytes at `pc` (R201, R202). -/
def toError (pc : Pc) : DecodeError → Error
  | .noOpcode => .outOfRange .memory pc.toNat
  | .illegalOpcode opcode => .illegalInstruction pc opcode
  | .missingOperand index => .outOfRange .memory (pc.toNat + index)
  | .registerOutOfRange value => .outOfRange .register value.toNat

/-- The operand decode of R84, with the machine's error. -/
def decodeFetched (pc : Pc) (o : Op) (bs : List Byte) : Except Error Instr :=
  match decodeOperands o bs with
  | .ok i => .ok i
  | .error e => .error (toError pc e)

/-- Opcode fetch (R81), dispatch look-up (R82), operand fetch (R83), operand decode (R84). No operand byte is read for
an illegal opcode. -/
def State.fetch (s : State) : Except Error Instr := do
  let opcode ← memRead s.mem s.pc.toNat
  match opOf opcode with
  | none => .error (toError s.pc (.illegalOpcode opcode))
  | some o =>
    let bs ← fetchBytes s.mem (s.pc.toNat + 1) o.format.operandCount
    decodeFetched s.pc o bs

end Sys2Proof.Machine
end

