-- ==== Sys2Proof/Machine/Load.lean ====
section
/-! DEFINITION. The load interface (R232), ProgramLoadError (R218), and, beside the machine, the text format of a
program source (R72), which the scope file leaves to the host (R5; log entry 7). -/

namespace Sys2Proof.Machine

/-- The image bytes written at consecutive addresses from `a`, each by MemWrite with its range check (R41, R232). -/
def writeImage (a : Nat) (m : Memory) : List Byte → Except Error Memory
  | [] => .ok m
  | b :: bs => do
    let m' ← memWrite m a b
    writeImage (a + 1) m' bs

/-- The load of R232: the image from address 0; an image that runs past the last cell is a ProgramLoadError, and then
there is no engine state to step (R218, log entry 6). -/
def State.load (s : State) (image : List Byte) : Except Error State :=
  match writeImage 0 s.mem image with
  | .ok m => .ok { s with mem := m }
  | .error _ => .error (.programLoadError (.imageLength image.length))

/-- Reset, then load (R233): the engine as it stands before its first step. -/
def boot (image : List Byte) : Except Error State := State.reset.load image

/-! ## The text format of a program source (R72, D19) -/

/-- A line without its comment, leading and trailing white space removed (R72). -/
def stripLine (line : List Char) : List Char :=
  let body := line.takeWhile (fun c => c != '#')
  ((body.dropWhile Char.isWhitespace).reverse.dropWhile Char.isWhitespace).reverse

/-- A binary digit. -/
def binaryDigit (c : Char) : Option Bool :=
  if c = '0' then some false else if c = '1' then some true else none

/-- The value of binary digits, most significant first (R7, R72). -/
def digitsValue : (acc : Nat) → List Char → Option Nat
  | acc, [] => some acc
  | acc, c :: cs =>
    match binaryDigit c with
    | none => none
    | some bit => digitsValue (2 * acc + bit.toNat) cs

/-- A literal of exactly eight binary digits (R72). -/
def parseLiteral (cs : List Char) : Option Byte :=
  if cs.length = 8 then (digitsValue 0 cs).map (BitVec.ofNat 8) else none

/-- The image bytes of the lines, in file order, blank and comment-only lines ignored; any other line is a
ProgramLoadError that names it (R72, R218). `number` is the number of the first line given. Of several such lines the first
is the one reported: DESIGN CHOICE, the spec orders a step's errors (R206) and no load errors (log entry 17). -/
def parseLines (number : Nat) : List (List Char) → Except Error (List Byte)
  | [] => .ok []
  | line :: rest =>
    match stripLine line with
    | [] => parseLines (number + 1) rest
    | c :: cs =>
      match parseLiteral (c :: cs) with
      | none => .error (.programLoadError (.line number))
      | some b => do
        let bs ← parseLines (number + 1) rest
        return b :: bs

/-- Reset and load from a program source; none stands for a missing one (R218). Where several ProgramLoadErrors apply, the
first malformed line is reported, and the image length only where every line is well formed: DESIGN CHOICE, the spec gives
load errors no order (log entry 17). -/
def bootSource (source : Option (List (List Char))) : Except Error State :=
  match source with
  | none => .error (.programLoadError .missingSource)
  | some lines => do
    let image ← parseLines 1 lines
    boot image

end Sys2Proof.Machine
end

