-- ==== Sys2Proof/Machine/Step.lean ====
section
/-! DEFINITION. The step (R80, R87), and the placing of an instruction where the step fetches. -/

namespace Sys2Proof.Machine

/-- One step (R87): only a Running engine has one (R80). An error of the fetch or decode phases is raised on the state as
it stands (R204); else the decoded instruction runs, and its meaning holds the pc rule of R86. -/
def step (s : State) : Host.Outcome State Fault Refusal :=
  match s.status with
  | .running =>
    match s.fetch with
    | .ok i => exec i s
    | .error e => .next (s.raise e)
  | .halted => .fault .halted
  | .faulted e => .fault (.faulted e)

/-- Bytes written at consecutive addresses; those past the last cell are dropped. -/
def placeBytes (a : Nat) (m : Memory) : List Byte → Memory
  | [] => m
  | b :: bs => placeBytes (a + 1) (if a < Config.memSize then m.writeCell a b else m) bs

/-- The state with an instruction word stored where the next step fetches, at pc: it stands for the host's load (R232,
log entry 8). It changes memory alone; the step runs the word from a Running state whose pc leaves it room. -/
def State.withFetchWord (s : State) (nbits w : Nat) : State :=
  { s with mem := placeBytes s.pc.toNat s.mem (wordBytes nbits w) }

end Sys2Proof.Machine
end

