-- ==== Sys2Proof/Machine/Run.lean ====
section
/-! DEFINITION. The run loop (R89, R90) and the optional trace (R34). -/

namespace Sys2Proof.Machine

/-- The run loop under a step budget (R89): steps while there is one, then the state it stopped in. The budget is the
executor's, no part of the hardware (R89, R239). -/
def runLoop : (fuel : Nat) → State → State
  | 0, s => s
  | fuel + 1, s =>
    match step s with
    | .next t => runLoop fuel t
    | .fault _ => s
    | .refused _ => s

/-- What a trace line shows (R34): pc, the next three raw bytes, all eight registers. Its text is the host's. -/
structure TraceRecord where
  pc : Pc
  /-- M[pc], M[pc+1], M[pc+2]; none for an address of 256 or more, which is not read. -/
  bytes : List (Option Byte)
  regs : Vector Byte 8
  deriving DecidableEq, Repr

/-- A byte of the trace: absent at an address of 256 or more (R34). -/
def traceByte (m : Memory) (a : Nat) : Option Byte :=
  if a < Config.memSize then some (m.readCell a) else none

/-- The trace record of a state (R33, R34). -/
def State.traceRecord (s : State) : TraceRecord where
  pc := s.pc
  bytes := [traceByte s.mem s.pc.toNat, traceByte s.mem (s.pc.toNat + 1), traceByte s.mem (s.pc.toNat + 2)]
  regs := s.regs

/-- A step with its trace line, produced before the step executes when the trace is enabled (R34). -/
def stepTraced (s : State) : Option TraceRecord × Host.Outcome State Fault Refusal :=
  (if Config.traceEnabled ∧ s.status = .running then some s.traceRecord else none, step s)

end Sys2Proof.Machine
end

