-- ==== Sys2Proof/Safety.lean ====
section
/-! DEFINITION. What counts as a safe run and as an end of a run (R90), the invariant of every step, and the vocabulary
of the claims: register use by instruction (R24) and how a step of each format goes (R81 to R84). -/

namespace Sys2Proof.Machine

/-! ## Runs -/

/-- `n` steps lead from one state to the other. -/
def stepsTo : Nat → State → State → Prop
  | 0, s, t => s = t
  | n + 1, s, t => ∃ u, step s = .next u ∧ stepsTo n u t

/-- Some number of steps leads there. -/
def Reachable (s t : State) : Prop := ∃ n, stepsTo n s t

/-- The normal end of a run (R90). -/
def EndsHalted (s t : State) : Prop := Reachable s t ∧ t.status = .halted

/-- The abnormal end of a run (R90). -/
def EndsFaulted (s t : State) (e : Error) : Prop := Reachable s t ∧ t.status = .faulted e

/-- A safe run: no error is ever raised (R203). It need not end (R239). -/
def NoError (s : State) : Prop := ∀ t e, ¬ EndsFaulted s t e

/-! ## The invariant -/

/-- Why a Faulted state is in its error (R201, R202, R204): the error names what stands at its pc. UnsupportedALUOp and
ProgramLoadError are no step's errors (R127, R218). -/
def ErrorAt (s : State) : Error → Prop
  | .outOfRange .memory a => 256 ≤ a ∧ a ≤ 258 ∧ s.pc.toNat ≤ a ∧ a ≤ s.pc.toNat + 2
  | .outOfRange .register b => 8 ≤ b ∧ b ≤ 255 ∧ s.pc.toNat + 1 < 256
  | .illegalInstruction pc opcode =>
    pc = s.pc ∧ s.pc.toNat < 256 ∧ s.mem.readCell s.pc.toNat = opcode ∧ opOf opcode = none
  | .unsupportedALUOp _ => False
  | .programLoadError _ => False

/-- What every state of a run satisfies, and every step keeps. -/
structure EngineInv (s : State) : Prop where
  /-- Memory is in its canonical form (log entry 11). -/
  memWf : s.mem.wf = true
  /-- FL is 0 or has exactly one of E, G, L, and bits 7..3 are 0 (R27, R28). -/
  flags : s.fl = 0#8 ∨ s.fl = flE ∨ s.fl = flG ∨ s.fl = flL
  /-- pc is at most 258 (R25, R86). -/
  pcBound : s.pc.toNat ≤ 258
  /-- A Halted engine stands at the HLT byte (R100). -/
  haltedAtHlt : s.status = .halted → s.pc.toNat < 256 ∧ s.mem.readCell s.pc.toNat = 0x01#8
  /-- A Faulted engine stands at the instruction that raised the error (R204). -/
  errorAt : ∀ e, s.status = .faulted e → ErrorAt s e

/-! ## Register use by instruction: the table of R24 -/

/-- The general registers an instruction reads (R24). -/
def regReads : Instr → List RegIdx
  | .hlt => []
  | .ldi _ _ => []
  | .prn rA => [rA]
  | .mul rA rB => [rA, rB]
  | .cmp rA rB => [rA, rB]
  | .jmp rA => [rA]
  | .jeq rA => [rA]
  | .jne rA => [rA]
  | .push rA => [rA, 7]
  | .pop _ => [7]

/-- The general registers an instruction writes (R24). -/
def regWrites : Instr → List RegIdx
  | .hlt => []
  | .ldi rA _ => [rA]
  | .prn _ => []
  | .mul rA _ => [rA]
  | .cmp _ _ => []
  | .jmp _ => []
  | .jeq _ => []
  | .jne _ => []
  | .push _ => [7]
  | .pop rA => [rA, 7]

end Sys2Proof.Machine

/-- The instruction with its register operands renamed. -/
def Sys2Proof.Instr.rename (f : Sys2Proof.RegIdx → Sys2Proof.RegIdx) : Sys2Proof.Instr → Sys2Proof.Instr
  | .hlt => .hlt
  | .ldi rA imm8 => .ldi (f rA) imm8
  | .prn rA => .prn (f rA)
  | .mul rA rB => .mul (f rA) (f rB)
  | .cmp rA rB => .cmp (f rA) (f rB)
  | .jmp rA => .jmp (f rA)
  | .jeq rA => .jeq (f rA)
  | .jne rA => .jne (f rA)
  | .push rA => .push (f rA)
  | .pop rA => .pop (f rA)

namespace Sys2Proof.Machine

/-- The state in which register `r` holds what `f r` held. -/
def State.rename (f : RegIdx → RegIdx) (s : State) : State := { s with regs := Vector.ofFn (fun r => s.readReg (f r)) }

/-! ## What stands at pc -/

/-- The bytes of an instruction stand at pc, none of them past the last cell. -/
def State.Holds (s : State) (i : Instr) : Prop :=
  s.pc.toNat + (encode i).length ≤ 256 ∧
    ∀ k (h : k < (encode i).length), s.mem.readCell (s.pc.toNat + k) = (encode i)[k]

/-- The bytes of memory from pc to the last cell. -/
def State.bytesFrom (s : State) : List Byte :=
  (List.range (256 - s.pc.toNat)).map (fun k => s.mem.readCell (s.pc.toNat + k))

/-- A step raises the error: the status becomes Faulted and nothing else changes (R203, R204). -/
def StepRaises (s : State) (e : Error) : Prop := step s = .next { s with status := .faulted e }

/-- A step past the last cell raises OutOfRange(memory, pc) (R81). -/
def RaisesPastEnd : Prop :=
  ∀ s : State, s.status = .running → 256 ≤ s.pc.toNat → StepRaises s (.outOfRange .memory s.pc.toNat)

/-- The opcode byte at pc, with the engine running. -/
def State.AtOpcode (s : State) (opcode : Byte) : Prop :=
  s.status = .running ∧ s.pc.toNat < 256 ∧ s.mem.readCell s.pc.toNat = opcode

/-- A step at an opcode of format F0: no operand byte is read. -/
def StepF0 (opcode : Byte) (i : Instr) : Prop :=
  RaisesPastEnd ∧ ∀ s : State, s.AtOpcode opcode → step s = exec i s

/-- A step at an opcode of format F1R: the operand byte's address is checked, then its value (R83, R84). -/
def StepF1R (opcode : Byte) (mk : RegIdx → Instr) : Prop :=
  RaisesPastEnd ∧ ∀ s : State, s.AtOpcode opcode →
    (256 ≤ s.pc.toNat + 1 → StepRaises s (.outOfRange .memory (s.pc.toNat + 1))) ∧
    (s.pc.toNat + 1 < 256 → ∀ b1, s.mem.readCell (s.pc.toNat + 1) = b1 →
      (8 ≤ b1.toNat → StepRaises s (.outOfRange .register b1.toNat)) ∧
      (∀ rA : RegIdx, rA.val = b1.toNat → step s = exec (mk rA) s))

/-- A step at an opcode of format F2RR: both addresses are checked, then b1, then b2 (R83, R84). -/
def StepF2RR (opcode : Byte) (mk : RegIdx → RegIdx → Instr) : Prop :=
  RaisesPastEnd ∧ ∀ s : State, s.AtOpcode opcode →
    (256 ≤ s.pc.toNat + 1 → StepRaises s (.outOfRange .memory (s.pc.toNat + 1))) ∧
    (s.pc.toNat + 2 = 256 → StepRaises s (.outOfRange .memory (s.pc.toNat + 2))) ∧
    (s.pc.toNat + 2 < 256 →
      ∀ b1 b2, s.mem.readCell (s.pc.toNat + 1) = b1 → s.mem.readCell (s.pc.toNat + 2) = b2 →
        (8 ≤ b1.toNat → StepRaises s (.outOfRange .register b1.toNat)) ∧
        (b1.toNat < 8 → 8 ≤ b2.toNat → StepRaises s (.outOfRange .register b2.toNat)) ∧
        (∀ rA rB : RegIdx, rA.val = b1.toNat → rB.val = b2.toNat → step s = exec (mk rA rB) s))

/-- A step at an opcode of format F2RI: both addresses are checked, then b1; b2 is the immediate (R64, R83, R84). -/
def StepF2RI (opcode : Byte) (mk : RegIdx → Byte → Instr) : Prop :=
  RaisesPastEnd ∧ ∀ s : State, s.AtOpcode opcode →
    (256 ≤ s.pc.toNat + 1 → StepRaises s (.outOfRange .memory (s.pc.toNat + 1))) ∧
    (s.pc.toNat + 2 = 256 → StepRaises s (.outOfRange .memory (s.pc.toNat + 2))) ∧
    (s.pc.toNat + 2 < 256 →
      ∀ b1 b2, s.mem.readCell (s.pc.toNat + 1) = b1 → s.mem.readCell (s.pc.toNat + 2) = b2 →
        (8 ≤ b1.toNat → StepRaises s (.outOfRange .register b1.toNat)) ∧
        (∀ rA : RegIdx, rA.val = b1.toNat → step s = exec (mk rA b2) s))

end Sys2Proof.Machine
end

