-- ==== Sys2Proof/Certificates/Slice0/Obligations.lean ====
section
/-! DEFINITION. The statements for the provers. Each docstring names the rule of spec/ it formalises, and the decision of
92_eei_decisions.md where a clause rests on one: a decision is the spec's own choice, not a statement of its source. -/

open Sys2Proof Sys2Proof.Machine

/-! ## Reset and load -/

/-- Every element right after reset, as the table of R230 lists it; that `out` is empty is decision D22. -/
def Obligations.ResetState : Prop :=
  (∀ r : RegIdx, r ≠ 7 → State.reset.readReg r = 0x00#8) ∧
  State.reset.readReg 7 = 0xF4#8 ∧
  State.reset.pc = 0#9 ∧
  State.reset.fl = 0x00#8 ∧
  (∀ a, a < 256 → memRead State.reset.mem a = .ok 0x00#8) ∧
  State.reset.status = .running ∧
  State.reset.out = []

/-- Load (R232): the image stands at 0, 1, 2, ..., every other cell reads 0x00, every other element is as at reset; an image
of more than 256 bytes is a ProgramLoadError (D19; log entry 6); an empty image makes the first step raise
IllegalInstruction(0, 0x00). -/
def Obligations.LoadImage : Prop :=
  (∀ image : List Byte, image.length ≤ 256 →
    ∃ s, boot image = .ok s ∧
      (∀ a, a < 256 → memRead s.mem a = .ok (image.getD a 0x00#8)) ∧
      s.regs = State.reset.regs ∧ s.pc = State.reset.pc ∧ s.fl = State.reset.fl ∧
      s.status = State.reset.status ∧ s.out = State.reset.out) ∧
  (∀ image : List Byte, 256 < image.length →
    boot image = .error (.programLoadError (.imageLength image.length))) ∧
  (∃ s, boot [] = .ok s ∧ StepRaises s (.illegalInstruction 0#9 0x00#8))

/-- The text format of a program source (R72, D19): leading and trailing white space and a comment aside, a line of eight
binary digits, most significant first, gives its byte; a blank or comment-only line gives nothing; any other line is a
ProgramLoadError that names it, whatever the lines after it are. Its number, its info record, what white space is, and that
an earlier line's error goes before a later one's are the model's choices (log entries 6, 7 and 17). -/
def Obligations.LoaderText : Prop :=
  ∀ (lead body tail comment : List Char) (rest : List (List Char)) (n : Nat),
    (∀ c ∈ lead, c.isWhitespace = true) → (∀ c ∈ tail, c.isWhitespace = true) → (∀ c ∈ body, c ≠ '#') →
    ∀ line, (line = lead ++ body ++ tail ∨ line = lead ++ body ++ tail ++ '#' :: comment) →
      (body = [] → parseLines n (line :: rest) = parseLines (n + 1) rest) ∧
      (∀ b : Byte, body = (List.range 8).map (fun k => if b.getLsbD (7 - k) then '1' else '0') →
        parseLines n (line :: rest) = (parseLines (n + 1) rest).map (b :: ·)) ∧
      (∀ first last, body.head? = some first → body.getLast? = some last →
        first.isWhitespace = false → last.isWhitespace = false →
        (body.length ≠ 8 ∨ ∃ c ∈ body, c ≠ '0' ∧ c ≠ '1') →
        parseLines n (line :: rest) = .error (.programLoadError (.line n)))

/-! ## Memory -/

/-- The access contract of R40 and what a read returns (R45, R48): an access at 256 or more raises OutOfRange and changes
nothing (decision D2); below, a write is read back and leaves every other cell alone. -/
def Obligations.MemoryReadWrite : Prop :=
  ∀ (m : Memory) (a : Nat) (v : Byte),
    (256 ≤ a →
      memRead m a = .error (.outOfRange .memory a) ∧ memWrite m a v = .error (.outOfRange .memory a)) ∧
    (a < 256 →
      memRead m a = .ok (m.readCell a) ∧
      ∃ m', memWrite m a v = .ok m' ∧ memRead m' a = .ok v ∧ ∀ b, b ≠ a → memRead m' b = memRead m b)

/-- The canonical form is one: two memories in it that read alike at every address are equal. The form is the model's choice
(log entry 11); that an unwritten cell reads 0x00 is R30 of 10_state.md. -/
def Obligations.MemoryCanonicalUnique : Prop :=
  ∀ m m' : Memory, m.wf = true → m'.wf = true → (∀ a, a < 256 → memRead m a = memRead m' a) → m = m'

/-! ## Encoding -/

/-- The dispatch table of R66 with the lengths of R60: exactly these ten bytes are opcodes, each with this row, format and
length, and bits 7:6 of each give the operand count. -/
def Obligations.OpcodeTable : Prop :=
  (∀ (b : Byte) (o : Op), opOf b = some o ↔ (b, o) ∈
    [(0x01#8, Op.hlt), (0x82#8, .ldi), (0x47#8, .prn), (0xA2#8, .mul), (0xA7#8, .cmp),
     (0x54#8, .jmp), (0x55#8, .jeq), (0x56#8, .jne), (0x45#8, .push), (0x46#8, .pop)]) ∧
  (∀ o : Op, (o, o.format, o.len) ∈
    [(Op.hlt, Format.f0, 1), (.ldi, .f2ri, 3), (.prn, .f1r, 2), (.mul, .f2rr, 3), (.cmp, .f2rr, 3),
     (.jmp, .f1r, 2), (.jeq, .f1r, 2), (.jne, .f1r, 2), (.push, .f1r, 2), (.pop, .f1r, 2)]) ∧
  (∀ (b : Byte) (o : Op), opOf b = some o → o.format.operandCount = b.toNat / 64) ∧
  (∀ b : Byte, b.toNat / 64 = 3 → opOf b = none)

/-- A few words of R71 written out byte by byte decode to the instructions they stand for. -/
def Obligations.DecodeWords : Prop :=
  decode [0x01#8] = .ok (.hlt, []) ∧
  decode [0x82#8, 0x00#8, 0x08#8] = .ok (.ldi 0 8#8, []) ∧
  decode [0xA7#8, 0x00#8, 0x01#8] = .ok (.cmp 0 1, []) ∧
  decode [0x55#8, 0x02#8] = .ok (.jeq 2, []) ∧
  decode [0x46#8, 0x07#8] = .ok (.pop 7, [])

/-- Decode and encode agree: the bytes of every instruction, with any bytes after them, decode to it and leave those bytes
(R43, R61 to R64). -/
def Obligations.DecodeEncode : Prop :=
  ∀ (i : Instr) (rest : List Byte), decode (encode i ++ rest) = .ok (i, rest)

/-- Each instruction has one spelling: bytes that decode to it begin with exactly its encoding (R61 to R64, R70). -/
def Obligations.EncodeDecode : Prop :=
  ∀ (bs : List Byte) (i : Instr) (rest : List Byte), decode bs = .ok (i, rest) → bs = encode i ++ rest

/-- What the decoder refuses, by name: no byte, a byte outside the table of R66, too few operand bytes, or a register byte
of 8 or more. -/
def Obligations.DecodeRefuses : Prop :=
  ∀ (bs : List Byte) (e : DecodeError), decode bs = .error e ↔
    (bs = [] ∧ e = .noOpcode) ∨
    (∃ b rest, bs = b :: rest ∧ opOf b = none ∧ e = .illegalOpcode b) ∨
    (∃ b rest o, bs = b :: rest ∧ opOf b = some o ∧ rest.length < o.format.operandCount ∧
      e = .missingOperand (rest.length + 1)) ∨
    (∃ b b1 rest o, bs = b :: b1 :: rest ∧ opOf b = some o ∧ 1 ≤ o.format.operandCount ∧
      o.format.operandCount ≤ rest.length + 1 ∧ 8 ≤ b1.toNat ∧ e = .registerOutOfRange b1) ∨
    (∃ b b1 b2 rest o, bs = b :: b1 :: b2 :: rest ∧ opOf b = some o ∧ o.format = .f2rr ∧
      b1.toNat < 8 ∧ 8 ≤ b2.toNat ∧ e = .registerOutOfRange b2)

/-! ## The step -/

/-- A step runs the decoded instruction: where an instruction's bytes stand at the pc of a Running engine, the step is its
meaning at that state. The step adds nothing around it: the pc rule of R86 is the meaning's (R87). -/
def Obligations.StepRunsDecoded : Prop :=
  ∀ (s : State) (i : Instr), s.status = .running → s.Holds i → step s = exec i s

/-- The step's fetch phases and the decoder read the same bytes alike: whatever the decoder answers of the bytes from pc
to the last cell, the step runs, or raises as the error of R200 (R81 to R84, R87). -/
def Obligations.StepAgreesWithDecode : Prop :=
  ∀ s : State, s.status = .running →
    (∀ i rest, decode s.bytesFrom = .ok (i, rest) → step s = exec i s) ∧
    (∀ e, decode s.bytesFrom = .error e → StepRaises s (toError s.pc e))

/-- The word placed by `withFetchWord` is the one the next step runs (log entry 8). -/
def Obligations.FetchWordRuns : Prop :=
  ∀ (s : State) (nbits w : Nat) (i : Instr), s.status = .running → s.pc.toNat ≤ 253 →
    decodeTableWord nbits w = some i →
    step (s.withFetchWord nbits w) = exec i (s.withFetchWord nbits w)

/-- The error a step reports, first one first (R206, decision D9): OutOfRange(memory, pc); IllegalInstruction;
OutOfRange(memory, pc + 1), then pc + 2; OutOfRange(register, b1), then b2; else an instruction of that row runs. The last
clause is R206's example. -/
def Obligations.ErrorPriority : Prop :=
  (∀ s : State, s.status = .running →
    (256 ≤ s.pc.toNat → StepRaises s (.outOfRange .memory s.pc.toNat)) ∧
    (s.pc.toNat < 256 → ∀ opcode, s.mem.readCell s.pc.toNat = opcode →
      (opOf opcode = none → StepRaises s (.illegalInstruction s.pc opcode)) ∧
      (∀ o, opOf opcode = some o →
        (∀ k, 1 ≤ k → k ≤ o.format.operandCount → s.pc.toNat + k = 256 →
          StepRaises s (.outOfRange .memory (s.pc.toNat + k))) ∧
        (s.pc.toNat + o.format.operandCount < 256 →
          ∀ b1 b2, s.mem.readCell (s.pc.toNat + 1) = b1 → s.mem.readCell (s.pc.toNat + 2) = b2 →
            (o.format ≠ .f0 → 8 ≤ b1.toNat → StepRaises s (.outOfRange .register b1.toNat)) ∧
            (o.format = .f2rr → b1.toNat < 8 → 8 ≤ b2.toNat →
              StepRaises s (.outOfRange .register b2.toNat)) ∧
            ((o.format = .f0 ∨ (b1.toNat < 8 ∧ (o.format = .f2rr → b2.toNat < 8))) →
              ∃ i, i.op = o ∧ step s = exec i s))))) ∧
  (∀ s : State, s.AtOpcode 0xA2#8 → s.pc.toNat = 254 → s.mem.readCell 255 = 9#8 →
    StepRaises s (.outOfRange .memory 256))

/-- Errors are precise (R203, R204, decision D8): a step that ends Faulted changed the status and nothing else, so pc is
still at the instruction. -/
def Obligations.FaultWritesOnlyStatus : Prop :=
  ∀ (s t : State) (e : Error), step s = .next t → t.status = .faulted e →
    t = { s with status := .faulted e } ∧ s.status = .running

/-- A step exists exactly when the status is Running (R80, R205, decision D18); in a Halted or Faulted engine the run loop
leaves the state as it is, whatever its budget. -/
def Obligations.StepOnlyWhenRunning : Prop :=
  ∀ s : State,
    (s.status = .running ↔ ∃ t, step s = .next t) ∧
    (s.status = .halted → step s = .fault .halted ∧ ∀ n, runLoop n s = s) ∧
    (∀ e, s.status = .faulted e → step s = .fault (.faulted e) ∧ ∀ n, runLoop n s = s)

/-- HLT is the only instruction that changes the status to Halted, and no instruction changes it from Halted (R101). -/
def Obligations.OnlyHltHalts : Prop :=
  (∀ (i : Instr) (s t : State), exec i s = .next t → s.status ≠ .halted → t.status = .halted → i = .hlt) ∧
  (∀ s : State, ∃ t, exec .hlt s = .next t ∧ t.status = .halted) ∧
  (∀ (i : Instr) (s t : State), exec i s = .next t → s.status = .halted → t.status = .halted) ∧
  (∀ s t : State, s.status = .halted → step s ≠ .next t)

/-- An execute phase raises no error (R85, an inference of the spec): every instruction of every state answers a next state
with the status it began with, but for HLT, whose status is Halted. -/
def Obligations.ExecuteNeverRaises : Prop :=
  ∀ (i : Instr) (s : State), ∃ t, exec i s = .next t ∧ t.status = if i = .hlt then .halted else s.status

/-- The pc after an instruction (R86; that HLT keeps it is decision D4): a jump's target is the register's value; every
other instruction goes on by its whole encoded length, without reduction modulo 256 and to at most 258. -/
def Obligations.PcRule : Prop :=
  ∀ (i : Instr) (s t : State), s.pc.toNat < 256 → exec i s = .next t →
    (i = .hlt → t.pc = s.pc) ∧
    (∀ rA, (i = .jmp rA ∨ (i = .jeq rA ∧ s.fl.getLsbD 0 = true) ∨ (i = .jne rA ∧ s.fl.getLsbD 0 = false)) →
      t.pc.toNat = (s.readReg rA).toNat) ∧
    ((i ≠ .hlt ∧ ∀ rA, i ≠ .jmp rA ∧ (i = .jeq rA → s.fl.getLsbD 0 = false) ∧
        (i = .jne rA → s.fl.getLsbD 0 = true)) →
      t.pc.toNat = s.pc.toNat + (encode i).length ∧ t.pc.toNat ≤ 258)

/-- The step's result depends only on (x, pc, FL, M, status) (R88, an inference of the spec): another output history
changes nothing but itself, and a step appends at most one value to it. -/
def Obligations.StepIgnoresOutput : Prop :=
  ∀ (s : State) (o : List Byte),
    (s.status = .running → ∃ (t : State) (added : List Byte), added.length ≤ 1 ∧
      step s = .next { t with out := s.out ++ added } ∧
      step { s with out := o } = .next { t with out := o ++ added }) ∧
    (s.status ≠ .running → step { s with out := o } = step s)

/-! ## The instructions. Each of these states one instruction's rule: its result in full, with its frame, and how a step at
its opcode goes, its errors included. The errors' clauses rest on decisions D2, D7 and D9, as the rules' own 'Exceptions'
lines do. -/

/-- HLT (R100): the status becomes Halted and nothing else changes; pc stays (decision D4), at address 255 too; no step
follows. -/
def Obligations.HltHaltsAndKeepsTheRest : Prop :=
  (∀ s : State, ∃ t, exec .hlt s = .next t ∧
    t.status = .halted ∧ t.pc = s.pc ∧ t.fl = s.fl ∧ t.out = s.out ∧
    (∀ r, t.readReg r = s.readReg r) ∧ (∀ a, t.mem.readCell a = s.mem.readCell a) ∧
    step t = .fault .halted) ∧
  StepF0 0x01#8 .hlt

/-- LDI rA, imm8 (R102): `x[rA]` is the immediate, R7 included; then pc + 3. -/
def Obligations.LdiLoadsImmediate : Prop :=
  (∀ (s : State) (rA : RegIdx) (imm8 : Byte), ∃ t, exec (.ldi rA imm8) s = .next t ∧
    t.readReg rA = imm8 ∧ (∀ r, r ≠ rA → t.readReg r = s.readReg r) ∧
    t.fl = s.fl ∧ t.out = s.out ∧ t.status = s.status ∧
    (∀ a, t.mem.readCell a = s.mem.readCell a) ∧
    (s.pc.toNat < 256 → t.pc.toNat = s.pc.toNat + 3)) ∧
  StepF2RI 0x82#8 .ldi

/-- PRN rA (R104): the register's 8-bit value is appended to `out`; then pc + 2. Its decimal text is outside the engine
(decision D14). -/
def Obligations.PrnAppendsRegister : Prop :=
  (∀ (s : State) (rA : RegIdx), ∃ t, exec (.prn rA) s = .next t ∧
    t.out = s.out ++ [s.readReg rA] ∧
    (∀ r, t.readReg r = s.readReg r) ∧ t.fl = s.fl ∧ t.status = s.status ∧
    (∀ a, t.mem.readCell a = s.mem.readCell a) ∧
    (s.pc.toNat < 256 → t.pc.toNat = s.pc.toNat + 2)) ∧
  StepF1R 0x47#8 .prn

/-- MUL rA, rB (R125): `x[rA]` is the product of both old values modulo 256, also when rA = rB; FL keeps its value; then
pc + 3. -/
def Obligations.MulMultipliesModulo256 : Prop :=
  (∀ (s : State) (rA rB : RegIdx), ∃ t, exec (.mul rA rB) s = .next t ∧
    (t.readReg rA).toNat = ((s.readReg rA).toNat * (s.readReg rB).toNat) % 256 ∧
    (∀ r, r ≠ rA → t.readReg r = s.readReg r) ∧
    t.fl = s.fl ∧ t.out = s.out ∧ t.status = s.status ∧
    (∀ a, t.mem.readCell a = s.mem.readCell a) ∧
    (s.pc.toNat < 256 → t.pc.toNat = s.pc.toNat + 3)) ∧
  StepF2RR 0xA2#8 .mul

/-- CMP rA, rB (R126): all of FL is written, exactly one of L, G, E set by the unsigned comparison, the others and bits
7..3 clear (decision D5); CMP of a register with itself gives E; then pc + 3. -/
def Obligations.CmpSetsExactlyOneFlag : Prop :=
  (∀ (s : State) (rA rB : RegIdx), ∃ t, exec (.cmp rA rB) s = .next t ∧
    ((s.readReg rA).toNat = (s.readReg rB).toNat → t.fl = 0b00000001#8) ∧
    ((s.readReg rB).toNat < (s.readReg rA).toNat → t.fl = 0b00000010#8) ∧
    ((s.readReg rA).toNat < (s.readReg rB).toNat → t.fl = 0b00000100#8) ∧
    (rA = rB → t.fl = 0b00000001#8) ∧
    (∀ r, t.readReg r = s.readReg r) ∧ t.out = s.out ∧ t.status = s.status ∧
    (∀ a, t.mem.readCell a = s.mem.readCell a) ∧
    (s.pc.toNat < 256 → t.pc.toNat = s.pc.toNat + 3)) ∧
  StepF2RR 0xA7#8 .cmp

/-- JMP rA (R140): pc is the register's value, whatever FL is; nothing else changes. -/
def Obligations.JmpGoesToRegister : Prop :=
  (∀ (s : State) (rA : RegIdx), ∃ t, exec (.jmp rA) s = .next t ∧
    t.pc.toNat = (s.readReg rA).toNat ∧
    (∀ r, t.readReg r = s.readReg r) ∧ t.fl = s.fl ∧ t.out = s.out ∧ t.status = s.status ∧
    (∀ a, t.mem.readCell a = s.mem.readCell a)) ∧
  (∀ (s : State) (rA : RegIdx) (v : Byte), ∃ t, exec (.jmp rA) s = .next t ∧
    exec (.jmp rA) { s with fl := v } = .next { t with fl := v }) ∧
  StepF1R 0x54#8 .jmp

/-- JEQ rA (R142): if bit 0 of FL is 1, pc is the register's value, else pc + 2; nothing else changes; the operand byte is
checked whether or not the branch is taken. -/
def Obligations.JeqBranchesWhenEqual : Prop :=
  (∀ (s : State) (rA : RegIdx), ∃ t, exec (.jeq rA) s = .next t ∧
    (s.fl.getLsbD 0 = true → t.pc.toNat = (s.readReg rA).toNat) ∧
    (s.fl.getLsbD 0 = false → s.pc.toNat < 256 → t.pc.toNat = s.pc.toNat + 2) ∧
    (∀ r, t.readReg r = s.readReg r) ∧ t.fl = s.fl ∧ t.out = s.out ∧ t.status = s.status ∧
    (∀ a, t.mem.readCell a = s.mem.readCell a)) ∧
  StepF1R 0x55#8 .jeq

/-- JNE rA (R144): if bit 0 of FL is 0, pc is the register's value, else pc + 2; nothing else changes. -/
def Obligations.JneBranchesWhenNotEqual : Prop :=
  (∀ (s : State) (rA : RegIdx), ∃ t, exec (.jne rA) s = .next t ∧
    (s.fl.getLsbD 0 = false → t.pc.toNat = (s.readReg rA).toNat) ∧
    (s.fl.getLsbD 0 = true → s.pc.toNat < 256 → t.pc.toNat = s.pc.toNat + 2) ∧
    (∀ r, t.readReg r = s.readReg r) ∧ t.fl = s.fl ∧ t.out = s.out ∧ t.status = s.status ∧
    (∀ a, t.mem.readCell a = s.mem.readCell a)) ∧
  StepF1R 0x56#8 .jne

/-- PUSH rA (R160, R161): the stack pointer goes down by one, wrapping at 0 (decision D3); the byte it then points at takes
the register's value, read after the decrement, so that PUSH R7 stores the new stack pointer (decision D6); every other
register and every byte but the one at `pushAddr s` is unchanged; then pc + 2. -/
def Obligations.PushStoresBelowStackPointer : Prop :=
  (∀ (s : State) (rA : RegIdx), ∃ t, exec (.push rA) s = .next t ∧
    ((t.readReg 7).toNat : Int) = ((s.readReg 7).toNat - 1 : Int) % 256 ∧
    (∀ r, r ≠ 7 → t.readReg r = s.readReg r) ∧
    pushAddr s = (t.readReg 7).toNat ∧
    memRead t.mem (pushAddr s) = .ok (if rA = 7 then t.readReg 7 else s.readReg rA) ∧
    (∀ a, a ≠ pushAddr s → t.mem.readCell a = s.mem.readCell a) ∧
    t.fl = s.fl ∧ t.out = s.out ∧ t.status = s.status ∧
    (s.pc.toNat < 256 → t.pc.toNat = s.pc.toNat + 2)) ∧
  StepF1R 0x45#8 .push

/-- POP rA (R162, R163): the register takes the byte the stack pointer points at, and the stack pointer goes up by one,
wrapping at 255 (decision D3); POP R7 ends with the popped byte plus one (decision D6); no byte of memory changes; then
pc + 2. -/
def Obligations.PopLoadsAtStackPointer : Prop :=
  (∀ (s : State) (rA : RegIdx), ∃ t v, exec (.pop rA) s = .next t ∧
    memRead s.mem (s.readReg 7).toNat = .ok v ∧
    (rA ≠ 7 → t.readReg rA = v ∧ (t.readReg 7).toNat = ((s.readReg 7).toNat + 1) % 256) ∧
    (rA = 7 → (t.readReg 7).toNat = (v.toNat + 1) % 256) ∧
    (∀ r, r ≠ rA → r ≠ 7 → t.readReg r = s.readReg r) ∧
    (∀ a, t.mem.readCell a = s.mem.readCell a) ∧
    t.fl = s.fl ∧ t.out = s.out ∧ t.status = s.status ∧
    (s.pc.toNat < 256 → t.pc.toNat = s.pc.toNat + 2)) ∧
  StepF1R 0x46#8 .pop

/-! ## The ALU -/

/-- alu(MUL, a, b) (R123): the low 8 bits of the product, and a value, no flags. -/
def Obligations.AluMul : Prop :=
  ∀ a b : Byte, ∃ v, alu .mul a b = .ok (.value v) ∧ v.toNat = (a.toNat * b.toNat) % 256

/-- alu(ADD) and alu(SUB) (R121, R122): modulo 256, the remainder taken non-negative; written back they leave FL alone; the
opcodes the wider family gives them are illegal (decision D11), and no row of the table runs them. -/
def Obligations.AluAddSub : Prop :=
  (∀ a b : Byte, ∃ v w, alu .add a b = .ok (.value v) ∧ v.toNat = (a.toNat + b.toNat) % 256 ∧
    alu .sub a b = .ok (.value w) ∧ (w.toNat : Int) = (a.toNat - b.toNat : Int) % 256) ∧
  (∀ (s : State) (o : Op) (rA rB : RegIdx), ∃ t u, aluExecute o .add rA rB s = .next t ∧
    aluExecute o .sub rA rB s = .next u ∧ t.fl = s.fl ∧ u.fl = s.fl ∧
    (t.readReg rA).toNat = ((s.readReg rA).toNat + (s.readReg rB).toNat) % 256 ∧
    ((u.readReg rA).toNat : Int) = ((s.readReg rA).toNat - (s.readReg rB).toNat : Int) % 256) ∧
  (∀ rest : List Byte, decode (0xA0#8 :: rest) = .error (.illegalOpcode 0xA0#8) ∧
    decode (0xA1#8 :: rest) = .error (.illegalOpcode 0xA1#8))

/-- alu(CMP, a, b) (R124): three-way and unsigned; exactly one of bits 2..0 is 1 and bits 7..3 are 0 (decision D5). -/
def Obligations.AluCmp : Prop :=
  ∀ a b : Byte, ∃ f, alu .cmp a b = .ok (.flags f) ∧
    (f.getLsbD 0 = true ↔ a = b) ∧ (f.getLsbD 1 = true ↔ b.toNat < a.toNat) ∧
    (f.getLsbD 2 = true ↔ a.toNat < b.toNat) ∧ (∀ k, 3 ≤ k → f.getLsbD k = false)

/-- UnsupportedALUOp (R127, an inference of the spec): the ALU raises it for a select that is none of its four, for none of
the four, and no run of a loaded program ever stands in it. -/
def Obligations.UnsupportedAluUnreachable : Prop :=
  (∀ (n : Nat) (a b : Byte), alu (.other n) a b = .error (.unsupportedALUOp (.other n))) ∧
  (∀ (f : AluSelect) (a b : Byte) (e : Error), alu f a b = .error e → ∃ n, f = .other n) ∧
  (∀ (o : Op) (n : Nat) (rA rB : RegIdx) (s : State), aluExecute o (.other n) rA rB s =
    .next { s with status := .faulted (.unsupportedALUOp (.other n)) }) ∧
  (∀ (image : List Byte) (s t : State) (f : AluSelect), boot image = .ok s → Reachable s t →
    t.status ≠ .faulted (.unsupportedALUOp f))

/-! ## Rules of the whole machine -/

/-- FL is written by CMP alone and read by JEQ and JNE alone, which read bit 0 alone; no instruction copies it anywhere;
after a CMP exactly one of L, G, E is 1, and at reset none is (R28). -/
def Obligations.FlagsUse : Prop :=
  (∀ (i : Instr) (s t : State), exec i s = .next t → i.op ≠ .cmp → t.fl = s.fl) ∧
  (∀ (i : Instr) (s : State) (v : Byte), i.op ≠ .jeq → i.op ≠ .jne → ∃ t, exec i s = .next t ∧
    exec i { s with fl := v } = .next { t with fl := if i.op = .cmp then t.fl else v }) ∧
  (∀ (i : Instr) (s : State) (v : Byte), (i.op = .jeq ∨ i.op = .jne) → v.getLsbD 0 = s.fl.getLsbD 0 →
    ∃ t, exec i s = .next t ∧ exec i { s with fl := v } = .next { t with fl := v }) ∧
  (∀ (s t : State) (rA rB : RegIdx), exec (.cmp rA rB) s = .next t →
    t.flagL.toNat + t.flagG.toNat + t.flagE.toNat = 1) ∧
  (State.reset.flagL = false ∧ State.reset.flagG = false ∧ State.reset.flagE = false)

/-- A conditional jump reads FL as the most recent CMP left it (R143): steps that run no CMP leave FL as it is; and while FL
is 0x00, as before the first CMP after reset, JEQ is not taken and JNE is (an inference of the spec). -/
def Obligations.FlagsKeptUntilCmp : Prop :=
  (∀ (n : Nat) (s t : State), stepsTo n s t →
    (∀ k u rA rB, k < n → stepsTo k s u → u.fetch ≠ .ok (.cmp rA rB)) → t.fl = s.fl) ∧
  (∀ (s : State) (rA : RegIdx), s.fl = 0x00#8 → ∃ t u, exec (.jeq rA) s = .next t ∧ exec (.jne rA) s = .next u ∧
    t.pc = s.pc + 2#9 ∧ u.pc.toNat = (s.readReg rA).toNat)

/-- The registers each instruction reads and writes, as the table of R24 has them (an inference of the spec): a register
that is not written keeps its value, and a register that is not read has no influence, neither on pc, FL, memory, output
or status nor on any other register. -/
def Obligations.RegisterUse : Prop :=
  (∀ (i : Instr) (s t : State) (r : RegIdx), exec i s = .next t → r ∉ regWrites i → t.readReg r = s.readReg r) ∧
  (∀ (i : Instr) (s : State) (r : RegIdx) (v : Byte), r ∉ regReads i → ∃ t, exec i s = .next t ∧
    exec i (s.writeReg r v) = .next (if r ∈ regWrites i then t else t.writeReg r v))

/-- Data memory is written by PUSH alone, at the decremented stack pointer alone, and read by POP alone, at the stack
pointer alone (R41, R47). So another memory in the state changes no other effect of any execute phase: with it, an
instruction but PUSH and POP does the same and leaves it as it is; POP too where it has the same byte at the stack pointer;
and PUSH gives the same registers, pc, FL, status and output, stores the same byte at the same address, and leaves every
other byte as it is. -/
def Obligations.MemoryUse : Prop :=
  (∀ (i : Instr) (s t : State) (a : Nat), exec i s = .next t →
    (i.op ≠ .push ∨ a ≠ pushAddr s) → t.mem.readCell a = s.mem.readCell a) ∧
  (∀ (i : Instr) (s : State) (m : Memory), i.op ≠ .push → i.op ≠ .pop → ∃ t, exec i s = .next t ∧
    exec i { s with mem := m } = .next { t with mem := m }) ∧
  (∀ (s : State) (m : Memory) (rA : RegIdx), m.readCell (s.readReg 7).toNat = s.mem.readCell (s.readReg 7).toNat →
    ∃ t, exec (.pop rA) s = .next t ∧ exec (.pop rA) { s with mem := m } = .next { t with mem := m }) ∧
  (∀ (s : State) (m : Memory) (rA : RegIdx), pushAddr { s with mem := m } = pushAddr s ∧
    ∃ t m', exec (.push rA) s = .next t ∧ exec (.push rA) { s with mem := m } = .next { t with mem := m' } ∧
      m'.readCell (pushAddr s) = t.mem.readCell (pushAddr s) ∧
      ∀ a, a ≠ pushAddr s → m'.readCell a = m.readCell a)

/-- The output (R105): every PRN step appends its register's value, one value, at the end; no other step, and no step that
raises an error, emits anything; so the values stand in the order of the steps that emitted them. -/
def Obligations.OutputOrder : Prop :=
  (∀ (s t : State) (rA : RegIdx), step s = .next t → s.fetch = .ok (.prn rA) →
    t.out = s.out ++ [s.readReg rA]) ∧
  (∀ s t : State, step s = .next t → (∀ rA, s.fetch ≠ .ok (.prn rA)) → t.out = s.out) ∧
  (∀ (s t : State) (e : Error), step s = .next t → t.status = .faulted e → t.out = s.out) ∧
  (∀ (n : Nat) (s t : State), stepsTo n s t → ∃ emitted, t.out = s.out ++ emitted ∧ emitted.length ≤ n)

/-- Self-modifying code (R50, R236, decision D17): a PUSH runs as it was fetched, also where it stores onto its own bytes;
after it every cell reads as before but the one stored to, which reads the pushed value v; and the very next step decodes
exactly those bytes, wherever among them the store went. Where it went onto the next opcode byte, an illegal v raises
IllegalInstruction, 0x01 halts, and a v of any other row of the table takes that row's operand bytes, running the
instruction or raising the operands' error. -/
def Obligations.FetchSeesPush : Prop :=
  ∀ (s : State) (rA : RegIdx), s.status = .running → s.Holds (.push rA) →
    ∃ t v, step s = .next t ∧ exec (.push rA) s = .next t ∧
      v = (if rA = 7 then t.readReg 7 else s.readReg rA) ∧ t.pc.toNat = s.pc.toNat + 2 ∧
      (∀ a, a < 256 → memRead t.mem a = .ok (if a = pushAddr s then v else s.mem.readCell a)) ∧
      (∀ bytes, bytes = (List.range (256 - (s.pc.toNat + 2))).map (fun k =>
          if s.pc.toNat + 2 + k = pushAddr s then v else s.mem.readCell (s.pc.toNat + 2 + k)) →
        (∀ i rest, decode bytes = .ok (i, rest) → step t = exec i t) ∧
        (∀ e, decode bytes = .error e → StepRaises t (toError t.pc e))) ∧
      (pushAddr s = s.pc.toNat + 2 →
        (opOf v = none → StepRaises t (.illegalInstruction t.pc v)) ∧
        (v = 0x01#8 → step t = .next { t with status := .halted }) ∧
        (∀ o, opOf v = some o →
          (256 < t.pc.toNat + o.len → StepRaises t (.outOfRange .memory 256)) ∧
          (t.pc.toNat + o.len ≤ 256 →
            ∀ operands, operands = (List.range o.format.operandCount).map
                (fun k => s.mem.readCell (s.pc.toNat + 3 + k)) →
              (∀ i, decodeOperands o operands = .ok i → step t = exec i t) ∧
              (∀ e, decodeOperands o operands = .error e → StepRaises t (toError t.pc e)))))

/-- PUSH then POP of one register (R164): every register has its old value, the stack pointer included and R7 included, and
only the pushed cell differs. -/
def Obligations.PushPopRoundTrip : Prop :=
  ∀ (s : State) (rA : RegIdx), ∃ t u, exec (.push rA) s = .next t ∧ exec (.pop rA) t = .next u ∧
    (∀ r, u.readReg r = s.readReg r) ∧ u.fl = s.fl ∧ u.out = s.out ∧ u.status = s.status ∧
    (∀ a, a ≠ pushAddr s → u.mem.readCell a = s.mem.readCell a)

/-- Last in, first out (R164): PUSH Ra; PUSH Rb; POP Rc; POP Rd with none of them R7. R164 does not say c and d differ; where
they are one register only the last POP's value can stand in it (log entry 13). -/
def Obligations.StackLastInFirstOut : Prop :=
  ∀ (s : State) (a b c d : RegIdx), a ≠ 7 → b ≠ 7 → c ≠ 7 → d ≠ 7 →
    ∃ s1 s2 s3 t, exec (.push a) s = .next s1 ∧ exec (.push b) s1 = .next s2 ∧ exec (.pop c) s2 = .next s3 ∧
      exec (.pop d) s3 = .next t ∧
      (c ≠ d → t.readReg c = s.readReg b) ∧ t.readReg d = s.readReg a ∧ t.readReg 7 = s.readReg 7

/-- The run loop (R89, R90): while the budget lasts it is the iterated step; a state it stops in is the first one not
Running on the way, it is Halted or Faulted, and no larger budget changes it. -/
def Obligations.RunLoopEnds : Prop :=
  ∀ (n : Nat) (s : State),
    ((runLoop n s).status = .running → stepsTo n s (runLoop n s)) ∧
    ((runLoop n s).status ≠ .running →
      (∀ m, n ≤ m → runLoop m s = runLoop n s) ∧
      (∃ k, k ≤ n ∧ stepsTo k s (runLoop n s) ∧ ∀ j u, j < k → stepsTo j s u → u.status = .running))

/-- A run has at most one end (R80, R90): two states not Running that one state leads to are the same; so a run that ends
Halted raises no error. -/
def Obligations.RunEndUnique : Prop :=
  (∀ s t u : State, Reachable s t → Reachable s u → t.status ≠ .running → u.status ≠ .running → t = u) ∧
  (∀ s t : State, EndsHalted s t → NoError s)

/-- A jump to its own address runs forever, by design (R89, R140, R239): every number of steps leads back to the state
itself, and no end is ever reached. -/
def Obligations.SelfJumpRunsForever : Prop :=
  ∀ (s : State) (rA : RegIdx), s.status = .running → s.Holds (.jmp rA) → (s.readReg rA).toNat = s.pc.toNat →
    (∀ n, stepsTo n s s) ∧ (∀ t, Reachable s t → t.status = .running)

/-- No register but the stack pointer is special (R20, R22, R210): exchanging registers in the instruction and in the state
exchanges them in the result, and in nothing else. R5 and R6, named after interrupts, are as R0 to R4. -/
def Obligations.RegistersInterchangeable : Prop :=
  ∀ (swap : RegIdx → RegIdx) (i : Instr) (s : State), (∀ r, swap (swap r) = r) → swap 7 = 7 →
    ∃ t, exec i s = .next t ∧ exec (i.rename swap) (s.rename swap) = .next (t.rename swap)

/-- The trace (R34, decision D15): its three bytes are the cells at pc, pc + 1 and pc + 2, absent at an address of 256 or
more; with the trace or without, the step is the same. -/
def Obligations.TraceReadsOnly : Prop :=
  ∀ s : State,
    s.traceRecord.pc = s.pc ∧ s.traceRecord.regs = s.regs ∧ s.traceRecord.bytes.length = 3 ∧
    (∀ k b, s.traceRecord.bytes[k]? = some b →
      b = (match memRead s.mem (s.pc.toNat + k) with | .ok v => some v | .error _ => none)) ∧
    (stepTraced s).2 = step s ∧ (s.status ≠ .running → (stepTraced s).1 = none)

/-! ## The invariant -/

/-- The reset state meets the invariant. -/
def Obligations.InvHoldsAtReset : Prop := EngineInv State.reset

/-- Every loaded engine meets the invariant, whatever the image. -/
def Obligations.InvHoldsAfterLoad : Prop :=
  ∀ (image : List Byte) (s : State), boot image = .ok s → EngineInv s

/-- Every step keeps the invariant: memory canonical, FL one of its four values (R27, R28), pc at most 258 (R25), a Halted
engine at its HLT byte (R100), a Faulted one at the instruction its error names (R201, R202, R204). -/
def Obligations.InvKeptByEveryStep : Prop :=
  ∀ s t : State, EngineInv s → step s = .next t → EngineInv t

/-- So every state of every run of a loaded program meets it, and in particular no run ends in an error but OutOfRange and
IllegalInstruction (R201, R202), with the cause codes 1 and 2 of R200 (decision D10). -/
def Obligations.InvHoldsOnEveryRun : Prop :=
  ∀ (image : List Byte) (s t : State), boot image = .ok s → Reachable s t →
    EngineInv t ∧ ∀ e, t.status = .faulted e → e.code = 1 ∨ e.code = 2
end

