-- ==== Sys2Proof/Laws/Memory.lean ====
section
/-! SUPPORT. The laws of memory: a read after a write, and that every memory operation keeps the canonical form. -/

namespace Sys2Proof.Machine

/-- MEM_SIZE as a numeral, for arithmetic (R6). -/
@[simp] theorem memSize_eq : Config.memSize = 256 := rfl

/-! ## Read after write -/

@[simp] theorem readCell_nil (a : Nat) : Memory.readCell a [] = 0#8 := rfl

theorem readCell_unlist (a b : Nat) (m : Memory) :
    Memory.readCell b (m.unlist a) = if a = b then 0#8 else m.readCell b := by
  induction m with
  | nil => simp [Memory.unlist]
  | cons c m ih =>
    obtain ⟨k, v⟩ := c
    unfold Memory.unlist at ih ⊢
    by_cases hk : k = a <;> by_cases hb : a = b <;>
      simp_all [Memory.readCell]

theorem readCell_place (a b : Nat) (v : Byte) (m : Memory) (h : ∀ c ∈ m, c.1 ≠ a) :
    Memory.readCell b (m.place a v) = if a = b then v else m.readCell b := by
  induction m with
  | nil => simp [Memory.place, Memory.readCell]
  | cons c m ih =>
    obtain ⟨k, w⟩ := c
    have hk : k ≠ a := h (k, w) (by simp)
    have ih := ih (fun c hc => h c (List.mem_cons_of_mem _ hc))
    unfold Memory.place
    split
    · simp [Memory.readCell]
    · simp only [Memory.readCell, ih]
      grind

theorem unlist_ne (a : Nat) (m : Memory) : ∀ c ∈ m.unlist a, c.1 ≠ a := by
  simp [Memory.unlist]

/-- A cell reads as it was last written, and every other cell as before (R45, R48). -/
theorem readCell_writeCell (a b : Nat) (v : Byte) (m : Memory) :
    Memory.readCell b (m.writeCell a v) = if a = b then v else m.readCell b := by
  unfold Memory.writeCell
  split
  · rename_i h; subst h; exact readCell_unlist a b m
  · rw [readCell_place a b v _ (unlist_ne a m), readCell_unlist]
    split <;> simp

theorem memRead_of_lt {a : Nat} (h : a < 256) (m : Memory) : memRead m a = .ok (m.readCell a) := by
  simp [memRead]; omega

theorem memRead_of_ge {a : Nat} (h : 256 ≤ a) (m : Memory) : memRead m a = .error (.outOfRange .memory a) := by
  simp [memRead, h]

theorem memWrite_of_lt {a : Nat} (h : a < 256) (m : Memory) (v : Byte) : memWrite m a v = .ok (m.writeCell a v) := by
  simp [memWrite]; omega

theorem memWrite_of_ge {a : Nat} (h : 256 ≤ a) (m : Memory) (v : Byte) :
    memWrite m a v = .error (.outOfRange .memory a) := by
  simp [memWrite, h]

/-! ## The canonical form -/

theorem wfFrom_cons (low a : Nat) (v : Byte) (m : Memory) :
    Memory.wfFrom low ((a, v) :: m) = true ↔
      low ≤ a ∧ a < 256 ∧ v ≠ 0#8 ∧ Memory.wfFrom (a + 1) m = true := by
  simp [Memory.wfFrom, and_assoc]

theorem wfFrom_mono {low low' : Nat} (h : low' ≤ low) {m : Memory} (hm : Memory.wfFrom low m = true) :
    Memory.wfFrom low' m = true := by
  cases m with
  | nil => rfl
  | cons c m =>
    obtain ⟨a, v⟩ := c
    rw [wfFrom_cons] at hm ⊢
    exact ⟨by omega, hm.2⟩

theorem wfFrom_unlist (a low : Nat) (m : Memory) (hm : Memory.wfFrom low m = true) :
    Memory.wfFrom low (m.unlist a) = true := by
  induction m generalizing low with
  | nil => rfl
  | cons c m ih =>
    obtain ⟨k, v⟩ := c
    rw [wfFrom_cons] at hm
    obtain ⟨h1, h2, h3, h4⟩ := hm
    have ih := ih (k + 1) h4
    unfold Memory.unlist at ih ⊢
    by_cases hk : k = a
    · simpa [hk] using wfFrom_mono (by omega) (hk ▸ ih)
    · simpa [hk, wfFrom_cons] using ⟨h1, h2, h3, ih⟩

theorem wfFrom_place {a low : Nat} {v : Byte} (hl : low ≤ a) (ha : a < 256) (hv : v ≠ 0#8) (m : Memory)
    (hne : ∀ c ∈ m, c.1 ≠ a) (hm : Memory.wfFrom low m = true) : Memory.wfFrom low (m.place a v) = true := by
  induction m generalizing low with
  | nil => simp [Memory.place, hl, ha, hv, Memory.wfFrom]
  | cons c m ih =>
    obtain ⟨k, w⟩ := c
    have hk : k ≠ a := hne (k, w) (by simp)
    rw [wfFrom_cons] at hm
    obtain ⟨h1, h2, h3, h4⟩ := hm
    unfold Memory.place
    split
    · simp only [wfFrom_cons]
      exact ⟨hl, ha, hv, by omega, h2, h3, h4⟩
    · rw [wfFrom_cons]
      exact ⟨h1, h2, h3, ih (by omega) (fun c hc => hne c (List.mem_cons_of_mem _ hc)) h4⟩

/-- A write of a cell keeps the canonical form. -/
theorem writeCell_wf {a : Nat} (ha : a < 256) (v : Byte) {m : Memory} (hm : m.wf = true) :
    (m.writeCell a v).wf = true := by
  unfold Memory.wf Memory.writeCell at *
  split
  · exact wfFrom_unlist a 0 m hm
  · exact wfFrom_place (Nat.zero_le a) ha ‹_› _ (unlist_ne a m) (wfFrom_unlist a 0 m hm)

/-- MemWrite keeps the canonical form. -/
theorem memWrite_wf {a : Nat} {v : Byte} {m m' : Memory} (h : memWrite m a v = .ok m') (hm : m.wf = true) :
    m'.wf = true := by
  by_cases ha : a < 256
  · rw [memWrite_of_lt ha] at h
    injection h with h
    exact h ▸ writeCell_wf ha v hm
  · rw [memWrite_of_ge (by omega)] at h
    cases h

/-- The loader's writes keep the canonical form. -/
theorem writeImage_wf {bs : List Byte} {a : Nat} {m m' : Memory} (h : writeImage a m bs = .ok m')
    (hm : m.wf = true) : m'.wf = true := by
  induction bs generalizing a m with
  | nil => simp only [writeImage, Except.ok.injEq] at h; exact h ▸ hm
  | cons b bs ih =>
    unfold writeImage at h
    cases hw : memWrite m a b with
    | error e => rw [hw] at h; cases h
    | ok m₁ => rw [hw] at h; exact ih h (memWrite_wf hw hm)

/-- Placing bytes keeps the canonical form. -/
theorem placeBytes_wf (bs : List Byte) (a : Nat) {m : Memory} (hm : m.wf = true) : (placeBytes a m bs).wf = true := by
  induction bs generalizing a m with
  | nil => exact hm
  | cons b bs ih =>
    apply ih
    split
    · exact writeCell_wf ‹_› b hm
    · exact hm

/-- Reset memory is in the canonical form. -/
theorem reset_mem_wf : State.reset.mem.wf = true := rfl

end Sys2Proof.Machine
end

