-- ==== Sys2Proof/Laws/Decode.lean ====
section
/-! SUPPORT. The laws of the decoder and of the fetch phases: what each answers, said once. -/

namespace Sys2Proof

/-- An opcode looked up gives its row. -/
@[simp] theorem opOf_opcode (o : Op) : opOf o.opcode = some o := by cases o <;> rfl

/-- A row is found only under its opcode. -/
theorem opcode_of_opOf {b : Byte} {o : Op} (h : opOf b = some o) : b = o.opcode := by
  have := List.find?_some h
  exact (beq_iff_eq.mp this).symm

@[simp] theorem regByte_toNat (r : RegIdx) : (regByte r).toNat = r.val := by
  simp only [regByte, BitVec.toNat_ofNat]; omega

/-- decodeReg accepts 0 to 7 (R63). -/
theorem decodeReg_of_lt {b : Byte} (h : b.toNat < 8) : decodeReg b = .ok ⟨b.toNat, h⟩ := by
  simp [decodeReg, h]

/-- decodeReg refuses 8 to 255 by name (R63). -/
theorem decodeReg_of_ge {b : Byte} (h : 8 ≤ b.toNat) : decodeReg b = .error (.registerOutOfRange b) := by
  simp [decodeReg]; omega

/-- decodeReg answers the index that is the byte. -/
theorem decodeReg_of_val {b : Byte} {r : RegIdx} (h : r.val = b.toNat) : decodeReg b = .ok r := by
  rw [decodeReg_of_lt (h ▸ r.isLt)]; simp [← h]

theorem isRegByte_regByte (r : RegIdx) : isRegByte (regByte r) = true := by
  simp [isRegByte]

/-- The bytes an instruction encodes to fit its format: every `Instr` is well formed (R61, R63). -/
theorem admits_operands (i : Instr) : i.op.format.admits i.operands = true := by
  cases i <;> simp [Instr.op, Op.format, Instr.operands, Format.admits, isRegByte_regByte]

/-- decodeReg accepts exactly the register bytes of `isRegByte` (R63). -/
theorem decodeReg_isOk (b : Byte) : (decodeReg b).isOk = isRegByte b := by
  by_cases h : b.toNat < 8
  · simp [decodeReg_of_lt h, isRegByte, h, Except.isOk, Except.toBool]
  · simp [decodeReg_of_ge (Nat.le_of_not_lt h), isRegByte, h, Except.isOk, Except.toBool]

/-- The decoder accepts operand bytes exactly where they fit the row's format (R61, R63, R84). -/
theorem decodeOperands_isOk {o : Op} {bs : List Byte} (h : bs.length = o.format.operandCount) :
    (decodeOperands o bs).isOk = o.format.admits bs := by
  have h1 (mk : RegIdx → Instr) (b1 : Byte) : (decodeR mk [b1]).isOk = isRegByte b1 := by
    rw [← decodeReg_isOk, decodeR]; cases decodeReg b1 <;> rfl
  have h2 (mk : RegIdx → RegIdx → Instr) (b1 b2 : Byte) :
      (decodeRR mk [b1, b2]).isOk = (isRegByte b1 && isRegByte b2) := by
    rw [← decodeReg_isOk, ← decodeReg_isOk, decodeRR]
    cases decodeReg b1 <;> cases decodeReg b2 <;> rfl
  have h3 (mk : RegIdx → Byte → Instr) (b1 b2 : Byte) : (decodeRI mk [b1, b2]).isOk = isRegByte b1 := by
    rw [← decodeReg_isOk, decodeRI]; cases decodeReg b1 <;> rfl
  match bs, h with
  | [], _ => cases o <;> rfl
  | [b1], h => cases o <;> first | exact h1 _ b1 | cases h
  | [b1, b2], h => cases o <;> first | exact h2 _ b1 b2 | exact h3 _ b1 b2 | cases h
  | _ :: _ :: _ :: _, h => cases o <;> cases h

/-- As many operand bytes as the format has (R61). -/
theorem operands_length (i : Instr) : i.operands.length = i.op.format.operandCount := by
  cases i <;> rfl

/-- The encoded length is the table's length (R9, R60). -/
theorem encode_length (i : Instr) : (encode i).length = i.op.len := by
  simp [encode, operands_length, Op.len, Nat.add_comm]

theorem len_le_three (o : Op) : o.len ≤ 3 := by cases o <;> decide

/-- A decoded instruction belongs to the row it was decoded by (R62). -/
theorem op_of_decodeOperands {o : Op} {bs : List Byte} {i : Instr} (h : decodeOperands o bs = .ok i) : i.op = o := by
  have hR (mk : RegIdx → Instr) (hmk : ∀ r, (mk r).op = o) (h : decodeR mk bs = .ok i) : i.op = o := by
    match bs, h with
    | b1 :: _, h =>
      simp only [decodeR] at h
      cases h1 : decodeReg b1 with
      | error e => rw [h1] at h; cases h
      | ok rA => rw [h1] at h; cases h; exact hmk rA
  have hRR (mk : RegIdx → RegIdx → Instr) (hmk : ∀ r q, (mk r q).op = o) (h : decodeRR mk bs = .ok i) : i.op = o := by
    match bs, h with
    | b1 :: b2 :: _, h =>
      simp only [decodeRR] at h
      cases h1 : decodeReg b1 with
      | error e => rw [h1] at h; cases h
      | ok rA =>
        rw [h1] at h
        cases h2 : decodeReg b2 with
        | error e => rw [h2] at h; cases h
        | ok rB => rw [h2] at h; cases h; exact hmk rA rB
  have hRI (mk : RegIdx → Byte → Instr) (hmk : ∀ r v, (mk r v).op = o) (h : decodeRI mk bs = .ok i) : i.op = o := by
    match bs, h with
    | b1 :: b2 :: _, h =>
      simp only [decodeRI] at h
      cases h1 : decodeReg b1 with
      | error e => rw [h1] at h; cases h
      | ok rA => rw [h1] at h; cases h; exact hmk rA b2
  cases o
  case hlt => cases h; rfl
  case ldi => exact hRI _ (fun _ _ => rfl) h
  case mul => exact hRR _ (fun _ _ => rfl) h
  case cmp => exact hRR _ (fun _ _ => rfl) h
  all_goals exact hR _ (fun _ => rfl) h

namespace Machine

/-- A fetched operand is in range and is the cell's byte; the first address of 256 or more is the error (R83). -/
theorem fetchBytes_zero (m : Memory) (a : Nat) : fetchBytes m a 0 = .ok [] := rfl

theorem fetchBytes_of_le {a n : Nat} (h : a + n ≤ 256) (m : Memory) :
    fetchBytes m a n = .ok ((List.range n).map (fun k => m.readCell (a + k))) := by
  induction n generalizing a with
  | zero => rfl
  | succ n ih =>
    have hr : memRead m a = .ok (m.readCell a) := memRead_of_lt (by omega) m
    rw [fetchBytes, hr, ih (by omega), List.range_succ_eq_map]
    simp [Function.comp_def, Nat.add_left_comm, Nat.add_comm]
    rfl

theorem fetchBytes_of_gt {a n : Nat} (ha : a ≤ 256) (h : 256 < a + n) (m : Memory) :
    fetchBytes m a n = .error (.outOfRange .memory 256) := by
  induction n generalizing a with
  | zero => omega
  | succ n ih =>
    by_cases ha' : a = 256
    · subst ha'; simp [fetchBytes, memRead]; rfl
    · have hr : memRead m a = .ok (m.readCell a) := memRead_of_lt (by omega) m
      rw [fetchBytes, hr, ih (by omega) (by omega)]
      rfl

/-- Fetch past the last cell (R81). -/
theorem fetch_of_ge {s : State} (h : 256 ≤ s.pc.toNat) : s.fetch = .error (.outOfRange .memory s.pc.toNat) := by
  have : memRead s.mem s.pc.toNat = .error (.outOfRange .memory s.pc.toNat) := memRead_of_ge h s.mem
  rw [State.fetch, this]; rfl

/-- Fetch of an opcode that is not in the table (R82). -/
theorem fetch_of_illegal {s : State} (h : s.pc.toNat < 256) (ho : opOf (s.mem.readCell s.pc.toNat) = none) :
    s.fetch = .error (.illegalInstruction s.pc (s.mem.readCell s.pc.toNat)) := by
  have : memRead s.mem s.pc.toNat = .ok (s.mem.readCell s.pc.toNat) := memRead_of_lt (by omega) s.mem
  simp [State.fetch, this, ho, bind, Except.bind, toError]

/-- Fetch of a legal opcode whose operand bytes run past the last cell (R83). -/
theorem fetch_of_short {s : State} {o : Op} (h : s.pc.toNat < 256) (ho : opOf (s.mem.readCell s.pc.toNat) = some o)
    (hn : 256 < s.pc.toNat + o.len) : s.fetch = .error (.outOfRange .memory 256) := by
  have hr : memRead s.mem s.pc.toNat = .ok (s.mem.readCell s.pc.toNat) := memRead_of_lt (by omega) s.mem
  have hb := fetchBytes_of_gt (a := s.pc.toNat + 1) (n := o.format.operandCount) (by omega)
    (by unfold Op.len at hn; omega) s.mem
  simp [State.fetch, hr, ho, hb, bind, Except.bind]

/-- Fetch of a legal opcode with all its operand bytes in memory (R84). -/
theorem fetch_of_fits {s : State} {o : Op} (ho : opOf (s.mem.readCell s.pc.toNat) = some o)
    (hn : s.pc.toNat + o.len ≤ 256) :
    s.fetch = decodeFetched s.pc o
      ((List.range o.format.operandCount).map (fun k => s.mem.readCell (s.pc.toNat + 1 + k))) := by
  have hl : 1 ≤ o.len := by unfold Op.len; omega
  have hr : memRead s.mem s.pc.toNat = .ok (s.mem.readCell s.pc.toNat) := memRead_of_lt (by omega) s.mem
  have hb := fetchBytes_of_le (a := s.pc.toNat + 1) (n := o.format.operandCount) (by unfold Op.len at hn; omega) s.mem
  simp [State.fetch, hr, ho, hb, bind, Except.bind]

end Machine

end Sys2Proof
end

