-- ==== Sys2Proof/Laws/State.lean ====
section
/-! SUPPORT. One lemma per field of State per named update, so that later proofs unfold no record update; and the
read-after-write law of the registers. -/

namespace Sys2Proof.Machine

section writeReg
variable (s : State) (r : RegIdx) (v : Byte)
@[simp] theorem State.writeReg_pc : (s.writeReg r v).pc = s.pc := rfl
@[simp] theorem State.writeReg_fl : (s.writeReg r v).fl = s.fl := rfl
@[simp] theorem State.writeReg_mem : (s.writeReg r v).mem = s.mem := rfl
@[simp] theorem State.writeReg_status : (s.writeReg r v).status = s.status := rfl
@[simp] theorem State.writeReg_out : (s.writeReg r v).out = s.out := rfl
end writeReg

section writeFl
variable (s : State) (v : Byte)
@[simp] theorem State.writeFl_regs : (s.writeFl v).regs = s.regs := rfl
@[simp] theorem State.writeFl_pc : (s.writeFl v).pc = s.pc := rfl
@[simp] theorem State.writeFl_fl : (s.writeFl v).fl = v := rfl
@[simp] theorem State.writeFl_mem : (s.writeFl v).mem = s.mem := rfl
@[simp] theorem State.writeFl_status : (s.writeFl v).status = s.status := rfl
@[simp] theorem State.writeFl_out : (s.writeFl v).out = s.out := rfl
end writeFl

section advance
variable (s : State) (o : Op)
@[simp] theorem State.advance_regs : (s.advance o).regs = s.regs := rfl
@[simp] theorem State.advance_pc : (s.advance o).pc = s.pc + BitVec.ofNat 9 o.len := rfl
@[simp] theorem State.advance_fl : (s.advance o).fl = s.fl := rfl
@[simp] theorem State.advance_mem : (s.advance o).mem = s.mem := rfl
@[simp] theorem State.advance_status : (s.advance o).status = s.status := rfl
@[simp] theorem State.advance_out : (s.advance o).out = s.out := rfl
end advance

section jump
variable (s : State) (target : Byte)
@[simp] theorem State.jump_regs : (s.jump target).regs = s.regs := rfl
@[simp] theorem State.jump_pc : (s.jump target).pc = target.setWidth 9 := rfl
@[simp] theorem State.jump_fl : (s.jump target).fl = s.fl := rfl
@[simp] theorem State.jump_mem : (s.jump target).mem = s.mem := rfl
@[simp] theorem State.jump_status : (s.jump target).status = s.status := rfl
@[simp] theorem State.jump_out : (s.jump target).out = s.out := rfl
end jump

section emit
variable (s : State) (v : Byte)
@[simp] theorem State.emit_regs : (s.emit v).regs = s.regs := rfl
@[simp] theorem State.emit_pc : (s.emit v).pc = s.pc := rfl
@[simp] theorem State.emit_fl : (s.emit v).fl = s.fl := rfl
@[simp] theorem State.emit_mem : (s.emit v).mem = s.mem := rfl
@[simp] theorem State.emit_status : (s.emit v).status = s.status := rfl
@[simp] theorem State.emit_out : (s.emit v).out = s.out ++ [v] := rfl
end emit

section halt
variable (s : State)
@[simp] theorem State.halt_regs : s.halt.regs = s.regs := rfl
@[simp] theorem State.halt_pc : s.halt.pc = s.pc := rfl
@[simp] theorem State.halt_fl : s.halt.fl = s.fl := rfl
@[simp] theorem State.halt_mem : s.halt.mem = s.mem := rfl
@[simp] theorem State.halt_status : s.halt.status = .halted := rfl
@[simp] theorem State.halt_out : s.halt.out = s.out := rfl
end halt

section raise
variable (s : State) (e : Error)
@[simp] theorem State.raise_regs : (s.raise e).regs = s.regs := rfl
@[simp] theorem State.raise_pc : (s.raise e).pc = s.pc := rfl
@[simp] theorem State.raise_fl : (s.raise e).fl = s.fl := rfl
@[simp] theorem State.raise_mem : (s.raise e).mem = s.mem := rfl
@[simp] theorem State.raise_status : (s.raise e).status = .faulted e := rfl
@[simp] theorem State.raise_out : (s.raise e).out = s.out := rfl
end raise

section stack
variable (s : State)
@[simp] theorem State.decSp_pc : s.decSp.pc = s.pc := rfl
@[simp] theorem State.decSp_fl : s.decSp.fl = s.fl := rfl
@[simp] theorem State.decSp_mem : s.decSp.mem = s.mem := rfl
@[simp] theorem State.decSp_status : s.decSp.status = s.status := rfl
@[simp] theorem State.decSp_out : s.decSp.out = s.out := rfl
@[simp] theorem State.incSp_pc : s.incSp.pc = s.pc := rfl
@[simp] theorem State.incSp_fl : s.incSp.fl = s.fl := rfl
@[simp] theorem State.incSp_mem : s.incSp.mem = s.mem := rfl
@[simp] theorem State.incSp_status : s.incSp.status = s.status := rfl
@[simp] theorem State.incSp_out : s.incSp.out = s.out := rfl
end stack

/-! ## Reading a register after an update -/

/-- Equal register files read equally. -/
theorem State.readReg_congr {s t : State} (h : s.regs = t.regs) (r : RegIdx) : s.readReg r = t.readReg r := by
  unfold State.readReg; rw [h]

/-- A register reads as it was written, and every other register as before (R20). -/
theorem State.readReg_writeReg (s : State) (r q : RegIdx) (v : Byte) :
    (s.writeReg r v).readReg q = if r = q then v else s.readReg q := by
  simp [State.writeReg, State.readReg, Vector.getElem_set, Fin.ext_iff]

@[simp] theorem State.readReg_writeReg_self (s : State) (r : RegIdx) (v : Byte) :
    (s.writeReg r v).readReg r = v := by
  simp [State.readReg_writeReg]

theorem State.readReg_writeReg_ne (s : State) {r q : RegIdx} (h : r ≠ q) (v : Byte) :
    (s.writeReg r v).readReg q = s.readReg q := by
  simp [State.readReg_writeReg, h]

/-- Writes of different registers commute. -/
theorem State.writeReg_comm (s : State) {r q : RegIdx} (h : r ≠ q) (v w : Byte) :
    (s.writeReg r v).writeReg q w = (s.writeReg q w).writeReg r v := by
  have h' : (r : Nat) ≠ q := fun e => h (Fin.ext e)
  simp only [State.writeReg]
  congr 1
  ext k hk
  simp only [Vector.getElem_set]
  split <;> split <;> first | rfl | omega

/-- The later write of a register is the one that stands. -/
theorem State.writeReg_writeReg (s : State) (r : RegIdx) (v w : Byte) :
    (s.writeReg r v).writeReg r w = s.writeReg r w := by
  simp only [State.writeReg]
  congr 1
  ext k hk
  simp only [Vector.getElem_set]
  split <;> rfl

@[simp] theorem State.readReg_writeFl (s : State) (v : Byte) (r : RegIdx) :
    (s.writeFl v).readReg r = s.readReg r := rfl
@[simp] theorem State.readReg_advance (s : State) (o : Op) (r : RegIdx) :
    (s.advance o).readReg r = s.readReg r := rfl
@[simp] theorem State.readReg_jump (s : State) (target : Byte) (r : RegIdx) :
    (s.jump target).readReg r = s.readReg r := rfl
@[simp] theorem State.readReg_emit (s : State) (v : Byte) (r : RegIdx) :
    (s.emit v).readReg r = s.readReg r := rfl
@[simp] theorem State.readReg_halt (s : State) (r : RegIdx) : s.halt.readReg r = s.readReg r := rfl
@[simp] theorem State.readReg_raise (s : State) (e : Error) (r : RegIdx) :
    (s.raise e).readReg r = s.readReg r := rfl

/-- The decremented stack pointer. -/
@[simp] theorem State.sp_decSp (s : State) : s.decSp.sp = s.sp - 1#8 := State.readReg_writeReg_self ..

/-- The incremented stack pointer. -/
@[simp] theorem State.sp_incSp (s : State) : s.incSp.sp = s.sp + 1#8 := State.readReg_writeReg_self ..

/-- Registers read alike whatever memory stands beside them. -/
@[simp] theorem State.readReg_withMem (s : State) (m : Memory) (r : RegIdx) :
    State.readReg { s with mem := m } r = s.readReg r := rfl

/-- The address PUSH stores to is the registers' alone. -/
@[simp] theorem pushAddr_withMem (s : State) (m : Memory) : pushAddr { s with mem := m } = pushAddr s := rfl

/-- PUSH stores at SP - 1 (R160). -/
theorem pushAddr_eq (s : State) : pushAddr s = (s.sp - 1#8).toNat := by
  simp [pushAddr]

/-- A stack address is a memory address, so a data access raises nothing (R41). -/
theorem pushAddr_lt (s : State) : pushAddr s < 256 := by
  unfold pushAddr; exact BitVec.isLt _

end Sys2Proof.Machine
end

