-- ==== Sys2Proof/Laws/Exec.lean ====
section
/-! SUPPORT. One equation per meaning: the next state it gives. Provers rewrite with these instead of unfolding. -/

namespace Sys2Proof.Machine

variable (s : State) (rA rB : RegIdx) (imm8 : Byte)

theorem orRaise_ok (t : State) : orRaise s (.ok t) = .next t := rfl

theorem orRaise_error (e : Error) : orRaise s (.error e) = .next (s.raise e) := rfl

theorem exec_hlt : exec .hlt s = .next s.halt := rfl

theorem exec_ldi : exec (.ldi rA imm8) s = .next ((s.writeReg rA imm8).advance .ldi) := rfl

theorem exec_prn : exec (.prn rA) s = .next ((s.emit (s.readReg rA)).advance .prn) := rfl

theorem exec_mul :
    exec (.mul rA rB) s = .next ((s.writeReg rA (aluMul (s.readReg rA) (s.readReg rB))).advance .mul) := rfl

theorem exec_cmp :
    exec (.cmp rA rB) s = .next ((s.writeFl (compareFlags (s.readReg rA) (s.readReg rB))).advance .cmp) := rfl

theorem exec_jmp : exec (.jmp rA) s = .next (s.jump (s.readReg rA)) := rfl

theorem exec_jeq : exec (.jeq rA) s = .next (branchIf s.flagE .jeq rA s) := rfl

theorem exec_jne : exec (.jne rA) s = .next (branchIf (!s.flagE) .jne rA s) := rfl

/-- PUSH never raises: its address is an 8-bit value (R41, R160). -/
theorem exec_push :
    exec (.push rA) s =
      .next (State.advance { s.decSp with mem := s.mem.writeCell (pushAddr s) (s.decSp.readReg rA) } .push) := by
  change orRaise s _ = _
  rw [memWrite_of_lt (pushAddr_lt s)]
  rfl

/-- What PUSH stores: the register's value read after the decrement, which for R7 is the new stack pointer (R160, R161). -/
theorem readReg_decSp : s.decSp.readReg rA = if rA = 7 then s.decSp.sp else s.readReg rA := by
  by_cases h : rA = 7
  · subst h; rfl
  · rw [if_neg h]; exact State.readReg_writeReg_ne s (Ne.symm h) _

/-- POP never raises: its address is an 8-bit value (R41, R162). -/
theorem exec_pop :
    exec (.pop rA) s = .next ((s.writeReg rA (s.mem.readCell s.sp.toNat)).incSp.advance .pop) := by
  change orRaise s _ = _
  rw [memRead_of_lt (BitVec.isLt s.sp)]
  rfl

/-- An ALU operation with an unsupported select raises UnsupportedALUOp and writes nothing else (R127). -/
theorem aluExecute_other (o : Op) (n : Nat) :
    aluExecute o (.other n) rA rB s = .next (s.raise (.unsupportedALUOp (.other n))) := rfl

/-! ## What a branch leaves alone (R140 to R144) -/

section branchIf
variable (taken : Bool) (o : Op)
@[simp] theorem branchIf_regs : (branchIf taken o rA s).regs = s.regs := by unfold branchIf; split <;> rfl
@[simp] theorem branchIf_fl : (branchIf taken o rA s).fl = s.fl := by unfold branchIf; split <;> rfl
@[simp] theorem branchIf_mem : (branchIf taken o rA s).mem = s.mem := by unfold branchIf; split <;> rfl
@[simp] theorem branchIf_status : (branchIf taken o rA s).status = s.status := by unfold branchIf; split <;> rfl
@[simp] theorem branchIf_out : (branchIf taken o rA s).out = s.out := by unfold branchIf; split <;> rfl
end branchIf

/-! ## The ALU's values -/

theorem aluAdd_toNat (a b : Byte) : (aluAdd a b).toNat = (a.toNat + b.toNat) % 256 := BitVec.toNat_add ..

theorem aluMul_toNat (a b : Byte) : (aluMul a b).toNat = (a.toNat * b.toNat) % 256 := BitVec.toNat_mul ..

/-- The remainder of the difference, taken non-negative (R122). -/
theorem aluSub_toNat (a b : Byte) : ((aluSub a b).toNat : Int) = ((a.toNat : Int) - b.toNat) % 256 := by
  simp only [aluSub, BitVec.toNat_sub]; omega

theorem compareFlags_eq (a : Byte) : compareFlags a a = flE := by simp [compareFlags]

theorem compareFlags_lt {a b : Byte} (h : a.toNat < b.toNat) : compareFlags a b = flL := by
  have : a ≠ b := by rintro rfl; omega
  simp [compareFlags, this, h]

theorem compareFlags_gt {a b : Byte} (h : b.toNat < a.toNat) : compareFlags a b = flG := by
  have : a ≠ b := by rintro rfl; omega
  simp [compareFlags, this, Nat.not_lt.mpr (Nat.le_of_lt h)]

/-- A comparison answers one of the three single flags (R124). -/
theorem compareFlags_cases (a b : Byte) :
    compareFlags a b = flE ∨ compareFlags a b = flL ∨ compareFlags a b = flG := by
  unfold compareFlags; split
  · exact .inl rfl
  · split
    · exact .inr (.inl rfl)
    · exact .inr (.inr rfl)

/-! ## pc -/

/-- The advance from an address of memory does not wrap (R86). -/
theorem advance_pc_toNat {s : State} (h : s.pc.toNat < 256) (o : Op) : (s.advance o).pc.toNat = s.pc.toNat + o.len := by
  have : o.len ≤ 3 := by cases o <;> decide
  simp only [State.advance_pc, BitVec.toNat_add, BitVec.toNat_ofNat]
  omega

/-- A jump's target is the register's value (R141). -/
theorem jump_pc_toNat (target : Byte) : (s.jump target).pc.toNat = target.toNat := by
  have := target.isLt
  simp only [State.jump_pc, BitVec.toNat_setWidth]
  omega

end Sys2Proof.Machine
end

