-- ==== Sys2Proof/Laws/PerInstr.lean ====
section
/-! SUPPORT. The per-instruction family `Shape`: what the two high opcode bits and the format say of an instruction's
bytes (R60, R61, R67). -/

namespace Sys2Proof.Laws.Shape

/-- The encoded length is 1 + the operand count that bits 7:6 of the opcode give, and the operand bytes fit the format
(R60, R61, R63, R67). -/
def Statement (i : Instr) : Prop :=
  (encode i).length = 1 + i.op.opcode.toNat / 64 ∧ i.op.format.admits i.operands = true

/-- Bits 7:6 of each opcode agree with the table's length (R67). -/
theorem length_of_opcode (i : Instr) : (encode i).length = 1 + i.op.opcode.toNat / 64 := by
  rw [encode_length]
  cases i.op <;> decide

theorem hlt : Statement .hlt := ⟨length_of_opcode _, admits_operands _⟩
theorem ldi (rA : RegIdx) (imm8 : Byte) : Statement (.ldi rA imm8) := ⟨length_of_opcode _, admits_operands _⟩
theorem prn (rA : RegIdx) : Statement (.prn rA) := ⟨length_of_opcode _, admits_operands _⟩
theorem mul (rA rB : RegIdx) : Statement (.mul rA rB) := ⟨length_of_opcode _, admits_operands _⟩
theorem cmp (rA rB : RegIdx) : Statement (.cmp rA rB) := ⟨length_of_opcode _, admits_operands _⟩
theorem jmp (rA : RegIdx) : Statement (.jmp rA) := ⟨length_of_opcode _, admits_operands _⟩
theorem jeq (rA : RegIdx) : Statement (.jeq rA) := ⟨length_of_opcode _, admits_operands _⟩
theorem jne (rA : RegIdx) : Statement (.jne rA) := ⟨length_of_opcode _, admits_operands _⟩
theorem push (rA : RegIdx) : Statement (.push rA) := ⟨length_of_opcode _, admits_operands _⟩
theorem pop (rA : RegIdx) : Statement (.pop rA) := ⟨length_of_opcode _, admits_operands _⟩

end Sys2Proof.Laws.Shape
end

