-- ==== Sys2Proof/Laws/Step.lean ====
section
/-! SUPPORT. What a step can do, said once: the inversion of `step`, and the steps of each phase. -/

namespace Sys2Proof.Machine

theorem step_of_fetch {s : State} (hs : s.status = .running) {i : Instr} (h : s.fetch = .ok i) : step s = exec i s := by
  simp [step, hs, h]

theorem step_of_fetch_error {s : State} (hs : s.status = .running) {e : Error} (h : s.fetch = .error e) :
    step s = .next (s.raise e) := by
  simp [step, hs, h]

theorem step_halted {s : State} (hs : s.status = .halted) : step s = .fault .halted := by simp [step, hs]

theorem step_faulted {s : State} {e : Error} (hs : s.status = .faulted e) : step s = .fault (.faulted e) := by
  simp [step, hs]

/-- A step that gives a next state began Running, and ran a fetched instruction or raised the fetch's error (R80, R87). -/
theorem step_cases {s t : State} (h : step s = .next t) :
    s.status = .running ∧
      ((∃ i, s.fetch = .ok i ∧ exec i s = .next t) ∨ (∃ e, s.fetch = .error e ∧ t = s.raise e)) := by
  unfold step at h
  split at h
  case h_1 hs =>
    refine ⟨hs, ?_⟩
    split at h
    case h_1 i hi => exact .inl ⟨i, hi, h⟩
    case h_2 e he => injection h with h; exact .inr ⟨e, he, h.symm⟩
  all_goals cases h

/-- A fetched instruction stands in memory: its opcode byte is the cell at pc, and it fits below the last cell. -/
theorem fetch_ok {s : State} {i : Instr} (h : s.fetch = .ok i) :
    s.pc.toNat < 256 ∧ opOf (s.mem.readCell s.pc.toNat) = some i.op ∧ s.pc.toNat + i.op.len ≤ 256 := by
  by_cases hp : 256 ≤ s.pc.toNat
  · rw [fetch_of_ge hp] at h; cases h
  have hp : s.pc.toNat < 256 := by omega
  cases ho : opOf (s.mem.readCell s.pc.toNat) with
  | none => rw [fetch_of_illegal hp ho] at h; cases h
  | some o =>
    by_cases hn : 256 < s.pc.toNat + o.len
    · rw [fetch_of_short hp ho hn] at h; cases h
    have hn : s.pc.toNat + o.len ≤ 256 := by omega
    rw [fetch_of_fits ho hn] at h
    unfold decodeFetched at h
    split at h
    case h_1 j hj =>
      injection h with h; subst h
      rw [op_of_decodeOperands hj]
      exact ⟨hp, rfl, hn⟩
    case h_2 => cases h

end Sys2Proof.Machine
end

