-- ==== Sys2Proof/Tests/Slice0.lean ====
section
/-! SUPPORT. Tests of the model against words and vectors of spec/ (95_test_vectors.md, named V<n>, S<n> where one is used),
the smoke tests of WellFormed, and for every statement a witness that meets its hypotheses at the edges of its clauses. -/

namespace Sys2Proof.Tests

open Sys2Proof.Machine

/-! ## WellFormed refuses what is ill formed (R61, R63) -/

theorem test_wf_f0_refuses_operand : Format.f0.admits [0x00#8] = false := by decide
theorem test_wf_f1r_refuses_none : Format.f1r.admits [] = false := by decide
theorem test_wf_f1r_refuses_register_8 : Format.f1r.admits [0x08#8] = false := by decide
theorem test_wf_f2rr_refuses_one_operand : Format.f2rr.admits [0x00#8] = false := by decide
theorem test_wf_f2rr_refuses_first_register_8 : Format.f2rr.admits [0x08#8, 0x00#8] = false := by decide
theorem test_wf_f2rr_refuses_second_register_255 : Format.f2rr.admits [0x00#8, 0xFF#8] = false := by decide
theorem test_wf_f2ri_refuses_register_8 : Format.f2ri.admits [0x08#8, 0x00#8] = false := by decide
theorem test_wf_f2ri_refuses_three_operands : Format.f2ri.admits [0x00#8, 0x00#8, 0x00#8] = false := by decide
theorem test_wf_f2ri_admits_any_immediate : Format.f2ri.admits [0x07#8, 0xFF#8] = true := by decide

/-! ## Decoding: a word written out bit by bit from R61 and R66 for every row -/

theorem test_decode_hlt : decode [0b00000001#8] = .ok (.hlt, []) := by rfl
theorem test_decode_ldi : decode [0b10000010#8, 0b00000000#8, 0b00001000#8] = .ok (.ldi 0 8#8, []) := by rfl
theorem test_decode_prn : decode [0b01000111#8, 0b00000111#8] = .ok (.prn 7, []) := by rfl
theorem test_decode_mul : decode [0b10100010#8, 0b00000001#8, 0b00000010#8] = .ok (.mul 1 2, []) := by rfl
theorem test_decode_cmp : decode [0b10100111#8, 0b00000000#8, 0b00000001#8] = .ok (.cmp 0 1, []) := by rfl
theorem test_decode_jmp : decode [0b01010100#8, 0b00000011#8] = .ok (.jmp 3, []) := by rfl
theorem test_decode_jeq : decode [0b01010101#8, 0b00000010#8] = .ok (.jeq 2, []) := by rfl
theorem test_decode_jne : decode [0b01010110#8, 0b00000011#8] = .ok (.jne 3, []) := by rfl
theorem test_decode_push : decode [0b01000101#8, 0b00000110#8] = .ok (.push 6, []) := by rfl
theorem test_decode_pop : decode [0b01000110#8, 0b00000001#8] = .ok (.pop 1, []) := by rfl
theorem test_decode_leaves_rest : decode [0x47#8, 0x00#8, 0x01#8] = .ok (.prn 0, [0x01#8]) := by rfl
theorem test_decode_illegal_zero : decode [0x00#8] = .error (.illegalOpcode 0x00#8) := by rfl
theorem test_decode_illegal_add : decode [0xA0#8, 0#8, 1#8] = .error (.illegalOpcode 0xA0#8) := by rfl
theorem test_decode_first_register_first : decode [0xA2#8, 0x0A#8, 0x0B#8] = .error (.registerOutOfRange 0x0A#8) := by rfl
theorem test_decode_missing_before_register : decode [0xA2#8, 0x09#8] = .error (.missingOperand 2) := by rfl
theorem test_decode_table_word_ldi : decodeTableWord 24 0x080082 = some (.ldi 0 8#8) := by decide
theorem test_decode_table_word_short : decodeTableWord 8 0xFFFF01 = some .hlt := by decide

/-! ## Steps -/

/-- The reset state with pc moved and bytes placed there. -/
def stateAt (pc : Nat) (bytes : List Byte) : State :=
  { State.reset with pc := BitVec.ofNat 9 pc, mem := placeBytes pc [] bytes }

/-- What a step's next state shows; none where there is none. -/
def after {α : Type} (s : State) (show' : State → α) : Option α :=
  match step s with
  | .next t => some (show' t)
  | .fault _ => none
  | .refused _ => none

/-- V20. -/
theorem test_hlt : after (stateAt 7 [0x01#8]) (fun t => (t.status, t.pc)) = some (.halted, 7#9) := by decide
/-- V7: HLT in the last cell. -/
theorem test_hlt_last_cell : after (stateAt 255 [0x01#8]) (fun t => (t.status, t.pc)) = some (.halted, 255#9) := by decide
/-- V21. -/
theorem test_ldi : after (stateAt 0 [0x82#8, 3#8, 0xFF#8]) (fun t => (t.readReg 3, t.pc)) = some (0xFF#8, 3#9) := by decide
/-- V10: LDI that ends in the last cell. -/
theorem test_ldi_at_253 : after (stateAt 253 [0x82#8, 1#8, 7#8]) (fun t => (t.readReg 1, t.pc)) = some (7#8, 256#9) := by
  decide
/-- V26. -/
theorem test_prn_sp : after (stateAt 0 [0x47#8, 7#8]) (fun t => (t.out, t.pc)) = some ([244#8], 2#9) := by decide
/-- V11: a register byte of 8. -/
theorem test_prn_register_8 : after (stateAt 0 [0x47#8, 8#8]) (fun t => (t.status, t.out, t.pc)) =
    some (.faulted (.outOfRange .register 8), [], 0#9) := by decide
/-- V50: a register squared. -/
theorem test_mul_square : after ((stateAt 0 [0xA2#8, 0#8, 0#8]).writeReg 0 20#8) (fun t => t.readReg 0) = some 144#8 := by
  decide
/-- V51: the wrap, and FL and rB kept. -/
theorem test_mul_wraps : after ((((stateAt 0 [0xA2#8, 1#8, 2#8]).writeReg 1 3#8).writeReg 2 100#8).writeFl 1#8)
    (fun t => (t.readReg 1, t.readReg 2, t.fl)) = some (44#8, 100#8, 1#8) := by decide
/-- V53. -/
theorem test_cmp_greater : after ((((stateAt 0 [0xA7#8, 0#8, 1#8]).writeReg 0 5#8).writeReg 1 3#8).writeFl 4#8)
    (fun t => (t.fl, t.pc)) = some (2#8, 3#9) := by decide
/-- V54: unsigned. -/
theorem test_cmp_unsigned : after (((stateAt 0 [0xA7#8, 0#8, 1#8]).writeReg 0 0x80#8).writeReg 1 0x7F#8)
    (fun t => t.fl) = some 2#8 := by decide
/-- V62. -/
theorem test_jmp_top : after ((stateAt 0 [0x54#8, 0#8]).writeReg 0 0xFF#8) (fun t => t.pc) = some 255#9 := by decide
/-- V60. -/
theorem test_jmp : after ((stateAt 4 [0x54#8, 3#8]).writeReg 3 0x10#8) (fun t => t.pc) = some 16#9 := by decide
/-- V63. -/
theorem test_jeq_taken : after (((stateAt 12 [0x55#8, 2#8]).writeReg 2 20#8).writeFl 1#8) (fun t => t.pc) = some 20#9 := by
  decide
/-- V64. -/
theorem test_jeq_not_taken : after (((stateAt 12 [0x55#8, 2#8]).writeReg 2 20#8).writeFl 4#8) (fun t => t.pc) = some 14#9 := by
  decide
/-- V68. -/
theorem test_jne_at_reset : after ((stateAt 18 [0x56#8, 3#8]).writeReg 3 12#8) (fun t => t.pc) = some 12#9 := by decide
/-- V67. -/
theorem test_jne_not_taken : after (((stateAt 18 [0x56#8, 3#8]).writeReg 3 12#8).writeFl 1#8) (fun t => t.pc) = some 20#9 := by
  decide
/-- V84. -/
theorem test_push_sp : after (stateAt 0 [0x45#8, 7#8]) (fun t => (t.sp, t.mem.readCell 0xF3)) = some (0xF3#8, 0xF3#8) := by
  decide
/-- V82. -/
theorem test_push_wraps : after (((stateAt 0 [0x45#8, 0#8]).writeReg 0 99#8).writeReg 7 0#8)
    (fun t => (t.sp, t.mem.readCell 0xFF)) = some (0xFF#8, 99#8) := by decide
/-- V85. -/
theorem test_pop_sp : after (({ stateAt 0 [0x46#8, 7#8] with mem := [(0, 0x46#8), (1, 7#8), (0xF3, 0x10#8)] }).writeReg 7 0xF3#8)
    (fun t => t.sp) = some 0x11#8 := by decide
/-- V83. -/
theorem test_pop_wraps : after (({ stateAt 0 [] with mem := [(0, 0x46#8), (1, 1#8), (0xFF, 99#8)] }).writeReg 7 0xFF#8)
    (fun t => (t.readReg 1, t.sp)) = some (99#8, 0#8) := by decide

/-- A table word placed where reset fetches runs at once: LDI R0,8, and HLT given by its 8 bits alone. -/
theorem test_fetch_word : (after (State.reset.withFetchWord 24 0x080082) (fun t => t.readReg 0) = some 8#8) ∧
    after (State.reset.withFetchWord 8 0x01) (fun t => t.status) = some .halted := by decide

/-! ## Errors -/

/-- V1. -/
theorem test_illegal_zero : step State.reset =
    .next { State.reset with status := .faulted (.illegalInstruction 0#9 0x00#8) } := by rfl
/-- V5. -/
theorem test_pc_256 : after (stateAt 256 []) (fun t => (t.status, t.pc)) =
    some (.faulted (.outOfRange .memory 256), 256#9) := by decide
/-- V8: decode before operand fetch. -/
theorem test_illegal_before_operands : after (stateAt 255 [0x02#8]) (fun t => t.status) =
    some (.faulted (.illegalInstruction 255#9 0x02#8)) := by decide
/-- V9: operand fetch before register decode. -/
theorem test_operand_before_register : after (stateAt 254 [0xA2#8, 9#8]) (fun t => t.status) =
    some (.faulted (.outOfRange .memory 256)) := by decide
/-- V14. -/
theorem test_halted_has_no_step : after (stateAt 0 [0x01#8]).halt (fun t => t.pc) = none := by decide
/-- R200's codes. -/
theorem test_codes : [Status.running.code, Status.halted.code, (Status.faulted (.outOfRange .register 8)).code,
    (Status.faulted (.illegalInstruction 0#9 0#8)).code, (Status.faulted (.unsupportedALUOp (.other 0))).code,
    (Status.faulted (.programLoadError .missingSource)).code] = [0, 0, 1, 2, 3, 4] := by decide

/-! ## ALU, loader, memory -/

/-- V42 and V45. -/
theorem test_alu_add_sub : (alu .add 200#8 100#8, alu .sub 0#8 1#8) = (.ok (.value 44#8), .ok (.value 255#8)) := by rfl
/-- V33 and V40. -/
theorem test_alu_mul_cmp : (alu .mul 15#8 17#8, alu .cmp 0x00#8 0xFF#8) = (.ok (.value 255#8), .ok (.flags 4#8)) := by rfl
/-- §1.4: the source's own literal, with a comment; a comment-only line; a blank line. -/
theorem test_load_lines : parseLines 1 ["# program".toList, "10000010  # LDI".toList, "".toList, "  00000001".toList] =
    .ok [0x82#8, 0x01#8] := by rfl
/-- R72: seven digits are no literal. -/
theorem test_load_bad_line : parseLines 1 ["00000001".toList, "1000001".toList] =
    .error (.programLoadError (.line 2)) := by rfl
/-- R218: a missing source. -/
theorem test_load_missing : bootSource none = .error (.programLoadError .missingSource) := by rfl
/-- A zero written over a listed cell leaves nothing listed. -/
theorem test_memory_canonical : Memory.writeCell 3 0#8 (Memory.writeCell 3 5#8 [(1, 2#8)]) = [(1, 2#8)] := by decide
theorem test_trace_absent : (stateAt 255 [0x01#8]).traceRecord.bytes = [some 0x01#8, none, none] := by decide

/-! ## Witnesses: what meets each statement's hypotheses, at the edges of its clauses -/

/-- The edge states of a one-operand opcode: past the end, no operand byte, register byte 8, register byte 7. -/
def meetsF1R (opcode : Byte) : Bool :=
  let past := stateAt 256 []
  let short := stateAt 255 [opcode]
  let bad := stateAt 254 [opcode, 8#8]
  let good := stateAt 254 [opcode, 7#8]
  decide (past.status = .running ∧ 256 ≤ past.pc.toNat) &&
  decide (short.status = .running ∧ short.pc.toNat < 256 ∧ short.mem.readCell short.pc.toNat = opcode ∧
    256 ≤ short.pc.toNat + 1) &&
  decide (bad.status = .running ∧ bad.pc.toNat + 1 < 256 ∧ bad.mem.readCell bad.pc.toNat = opcode ∧
    8 ≤ (bad.mem.readCell (bad.pc.toNat + 1)).toNat) &&
  decide (good.status = .running ∧ good.pc.toNat + 1 < 256 ∧ good.mem.readCell good.pc.toNat = opcode ∧
    (7 : RegIdx).val = (good.mem.readCell (good.pc.toNat + 1)).toNat)

/-- The edge states of a two-operand opcode: past the end, no operand byte, one operand byte, first register byte 8, second
byte 8, both 7. -/
def meetsF2 (opcode : Byte) : Bool :=
  let past := stateAt 256 []
  let none1 := stateAt 255 [opcode]
  let none2 := stateAt 254 [opcode, 9#8]
  let bad1 := stateAt 253 [opcode, 8#8, 8#8]
  let bad2 := stateAt 253 [opcode, 7#8, 8#8]
  let good := stateAt 253 [opcode, 7#8, 7#8]
  let at' (s : State) : Bool := decide (s.status = .running ∧ s.pc.toNat < 256 ∧ s.mem.readCell s.pc.toNat = opcode)
  decide (past.status = .running ∧ 256 ≤ past.pc.toNat) &&
  at' none1 && decide (256 ≤ none1.pc.toNat + 1) &&
  at' none2 && decide (none2.pc.toNat + 2 = 256) &&
  at' bad1 && decide (bad1.pc.toNat + 2 < 256 ∧ 8 ≤ (bad1.mem.readCell (bad1.pc.toNat + 1)).toNat) &&
  at' bad2 && decide (bad2.pc.toNat + 2 < 256 ∧ (bad2.mem.readCell (bad2.pc.toNat + 1)).toNat < 8 ∧
    8 ≤ (bad2.mem.readCell (bad2.pc.toNat + 2)).toNat) &&
  at' good && decide (good.pc.toNat + 2 < 256 ∧ (7 : RegIdx).val = (good.mem.readCell (good.pc.toNat + 1)).toNat ∧
    (7 : RegIdx).val = (good.mem.readCell (good.pc.toNat + 2)).toNat)

theorem witness_LdiLoadsImmediate : meetsF2 0x82#8 = true := by decide
theorem witness_PrnAppendsRegister : meetsF1R 0x47#8 = true := by decide
theorem witness_MulMultipliesModulo256 : meetsF2 0xA2#8 = true := by decide
/-- And for CMP's three cases: equal, greater, less. -/
theorem witness_CmpSetsExactlyOneFlag : meetsF2 0xA7#8 = true ∧
    ((stateAt 0 []).readReg 0).toNat = ((stateAt 0 []).readReg 1).toNat ∧
    ((stateAt 0 []).readReg 0).toNat < ((stateAt 0 []).readReg 7).toNat := by decide
theorem witness_JmpGoesToRegister : meetsF1R 0x54#8 = true := by decide
theorem witness_JeqBranchesWhenEqual : meetsF1R 0x55#8 = true ∧ ((stateAt 0 []).writeFl 1#8).fl.getLsbD 0 = true ∧
    ((stateAt 255 []).writeFl 4#8).fl.getLsbD 0 = false ∧ (stateAt 255 []).pc.toNat < 256 := by decide
theorem witness_JneBranchesWhenNotEqual : meetsF1R 0x56#8 = true ∧ ((stateAt 255 []).writeFl 1#8).fl.getLsbD 0 = true ∧
    ((stateAt 0 []).writeFl 2#8).fl.getLsbD 0 = false ∧ (stateAt 255 []).pc.toNat < 256 := by decide
/-- Addresses other than the one stored to, on both sides of the wrap. -/
theorem witness_PushStoresBelowStackPointer : meetsF1R 0x45#8 = true ∧ 0 ≠ pushAddr (stateAt 0 []) ∧
    255 = pushAddr ((stateAt 0 []).writeReg 7 0#8) ∧ (6 : RegIdx) ≠ 7 := by decide
theorem witness_PopLoadsAtStackPointer : meetsF1R 0x46#8 = true ∧ (6 : RegIdx) ≠ 7 ∧ (0 : RegIdx) ≠ 6 := by decide
theorem witness_HltHaltsAndKeepsTheRest : (stateAt 255 [0x01#8]).AtOpcode 0x01#8 ∧ 256 ≤ (stateAt 256 []).pc.toNat := by
  unfold State.AtOpcode; decide

theorem witness_ResetState : (6 : RegIdx) ≠ 7 ∧ 255 < 256 := by decide
theorem witness_LoadImage : ∃ fits long : List Byte, fits.length = 256 ∧ fits.length ≤ 256 ∧ 256 < long.length :=
  ⟨List.replicate 256 1#8, List.replicate 257 1#8, List.length_replicate, Nat.le_of_eq List.length_replicate,
    Nat.le_of_eq List.length_replicate.symm⟩
/-- White space, the literal of 0x02, and a line of seven digits. -/
theorem witness_LoaderText : (∀ c ∈ [' ', '\t'], c.isWhitespace = true) ∧
    (∀ c ∈ ['1', '0', '0', '0', '0', '0', '1'], c ≠ '#') ∧
    ['1', '0', '0', '0', '0', '0', '1'].head? = some '1' ∧ ['1', '0', '0', '0', '0', '0', '1'].getLast? = some '1' ∧
    ['1', '0', '0', '0', '0', '0', '1'].length ≠ 8 ∧ '1'.isWhitespace = false ∧
    ['0', '0', '0', '0', '0', '0', '1', '0'] =
      (List.range 8).map (fun k => if (2#8).getLsbD (7 - k) then '1' else '0') :=
  ⟨fun c hc => by simp only [List.mem_cons, List.not_mem_nil, or_false] at hc; rcases hc with rfl | rfl <;> decide,
    fun c hc => by simp at hc; rcases hc with rfl | rfl | rfl <;> decide,
    rfl, rfl, by decide, by decide, rfl⟩
theorem witness_MemoryReadWrite : 256 ≤ 256 ∧ 255 < 256 ∧ 254 ≠ 255 := by decide
theorem witness_MemoryCanonicalUnique : Memory.wf [(0, 1#8), (255, 2#8)] = true ∧
    ∀ a, a < 256 → memRead [(0, 1#8), (255, 2#8)] a = memRead (Memory.writeCell 255 2#8 [(0, 1#8)]) a :=
  ⟨by decide, fun _ _ => rfl⟩
theorem witness_OpcodeTable : opOf 0x01#8 = some .hlt ∧ (0xC0#8).toNat / 64 = 3 ∧ (0xFF#8).toNat / 64 = 3 := by decide
theorem witness_EncodeDecode : decode [0x45#8, 7#8, 1#8] = .ok (.push 7, [1#8]) := by rfl
theorem witness_StepRunsDecoded : (stateAt 253 [0xA2#8, 7#8, 0#8]).status = .running ∧
    (stateAt 253 [0xA2#8, 7#8, 0#8]).Holds (.mul 7 0) :=
  ⟨rfl, by unfold State.Holds; decide⟩
theorem witness_StepAgreesWithDecode : (stateAt 255 [0x47#8]).status = .running ∧
    decode (stateAt 255 [0x01#8]).bytesFrom = .ok (.hlt, []) ∧
    decode (stateAt 255 [0x47#8]).bytesFrom = .error (.missingOperand 1) ∧
    decode (stateAt 256 []).bytesFrom = .error .noOpcode := ⟨rfl, rfl, rfl, rfl⟩
theorem witness_FetchWordRuns : (stateAt 253 []).status = .running ∧ (stateAt 253 []).pc.toNat ≤ 253 ∧
    decodeTableWord 24 0x0001A7 = some (.cmp 1 0) := by decide
/-- The clauses of ErrorPriority at their edges: an illegal opcode in the last cell, F0 there, and the example. -/
theorem witness_ErrorPriority : opOf ((stateAt 255 [0x02#8]).mem.readCell 255) = none ∧
    opOf ((stateAt 255 [0x01#8]).mem.readCell 255) = some .hlt ∧ 255 + Format.f0.operandCount < 256 ∧
    meetsF1R 0x45#8 = true ∧ meetsF2 0xA2#8 = true ∧
    (stateAt 254 [0xA2#8, 9#8]).mem.readCell 255 = 9#8 := by decide
theorem witness_FaultWritesOnlyStatus : step State.reset =
    .next { State.reset with status := .faulted (.illegalInstruction 0#9 0#8) } := by rfl
theorem witness_StepOnlyWhenRunning : State.reset.status = .running ∧ State.reset.halt.status = .halted ∧
    (State.reset.raise (.outOfRange .memory 256)).status = .faulted (.outOfRange .memory 256) := by decide
theorem witness_OnlyHltHalts : exec .hlt State.reset = .next State.reset.halt ∧ State.reset.status ≠ .halted ∧
    State.reset.halt.status = .halted := ⟨rfl, by decide, rfl⟩
/-- A jump, a branch taken and one not taken, and an advance from 255. -/
theorem witness_PcRule : (stateAt 255 []).pc.toNat < 256 ∧
    exec (.jeq 0) ((stateAt 255 []).writeFl 1#8) = .next (((stateAt 255 []).writeFl 1#8).jump 0#8) ∧
    exec (.jeq 0) (stateAt 255 []) = .next ((stateAt 255 []).advance .jeq) ∧
    exec (.ldi 0 1#8) (stateAt 255 []) = .next (((stateAt 255 []).writeReg 0 1#8).advance .ldi) :=
  ⟨by decide, rfl, rfl, rfl⟩
theorem witness_StepIgnoresOutput : State.reset.status = .running ∧ State.reset.halt.status ≠ .running := by decide
theorem witness_UnsupportedAluUnreachable : alu (.other 0) 1#8 1#8 = .error (.unsupportedALUOp (.other 0)) ∧
    boot [0x01#8] = .ok (stateAt 0 [0x01#8]) ∧ Reachable (stateAt 0 [0x01#8]) (stateAt 0 [0x01#8]).halt :=
  ⟨rfl, rfl, 1, _, rfl, rfl⟩
theorem witness_FlagsUse : exec (.ldi 0 1#8) State.reset = .next ((State.reset.writeReg 0 1#8).advance .ldi) ∧
    (Instr.ldi 0 1#8).op ≠ .cmp ∧ (Instr.ldi 0 1#8).op ≠ .jeq ∧ (Instr.ldi 0 1#8).op ≠ .jne ∧
    (4#8).getLsbD 0 = State.reset.fl.getLsbD 0 ∧
    exec (.cmp 0 0) State.reset = .next ((State.reset.writeFl 1#8).advance .cmp) :=
  ⟨rfl, by decide, by decide, by decide, by decide, rfl⟩
/-- One step of LDI, which runs no CMP. -/
theorem witness_FlagsKeptUntilCmp : ∃ t, stepsTo 1 (stateAt 0 [0x82#8, 0#8, 8#8]) t ∧
    (∀ k u rA rB, k < 1 → stepsTo k (stateAt 0 [0x82#8, 0#8, 8#8]) u → u.fetch ≠ .ok (.cmp rA rB)) ∧
    (stateAt 0 [0x82#8, 0#8, 8#8]).fl = 0x00#8 := by
  refine ⟨_, ⟨_, rfl, rfl⟩, ?_, rfl⟩
  intro k u rA rB hk hu
  obtain rfl : k = 0 := by omega
  obtain rfl : stateAt 0 [0x82#8, 0#8, 8#8] = u := hu
  have hf : (stateAt 0 [0x82#8, 0#8, 8#8]).fetch = .ok (.ldi 0 8#8) := rfl
  rw [hf]
  intro h
  cases h
theorem witness_RegisterUse : (6 : RegIdx) ∉ regWrites (.pop 5) ∧ (5 : RegIdx) ∉ regReads (.pop 5) ∧
    (7 : RegIdx) ∉ regReads (.ldi 7 1#8) := by decide
theorem witness_MemoryUse : (Instr.pop 0).op ≠ .push ∧ 0xF4 ≠ pushAddr State.reset ∧ (Instr.prn 0).op ≠ .push ∧
    (Instr.prn 0).op ≠ .pop ∧
    Memory.readCell (State.reset.readReg 7).toNat [(0, 1#8)] = State.reset.mem.readCell (State.reset.readReg 7).toNat := by
  decide
theorem witness_OutputOrder : (stateAt 0 [0x47#8, 7#8]).fetch = .ok (.prn 7) ∧ (stateAt 0 [0x01#8]).fetch = .ok .hlt ∧
    after (stateAt 0 [0x47#8, 8#8]) (fun t => t.status) = some (.faulted (.outOfRange .register 8)) := ⟨rfl, rfl, by decide⟩
/-- A PUSH of the value at pc, with the stack pointer above the next opcode byte, which it so stores onto. -/
def pushOntoNext (pc : Nat) (v : Byte) : State :=
  ((stateAt pc [0x45#8, 0#8]).writeReg 0 v).writeReg 7 (BitVec.ofNat 8 (pc + 3))

/-- The store lands on the next opcode byte: of 0x00, illegal there; of 0x01, HLT; of 0x47, whose operand byte stands
there; of 0x47 in the last cell, whose operand byte is missing. -/
theorem witness_FetchSeesPush :
    (∀ v, (pushOntoNext 4 v).status = .running) ∧ (pushOntoNext 4 0x00#8).Holds (.push 0) ∧
    (pushOntoNext 4 0x01#8).Holds (.push 0) ∧ (pushOntoNext 4 0x47#8).Holds (.push 0) ∧
    (pushOntoNext 253 0x47#8).Holds (.push 0) ∧
    pushAddr (pushOntoNext 4 0x47#8) = (pushOntoNext 4 0x47#8).pc.toNat + 2 ∧
    pushAddr (pushOntoNext 253 0x47#8) = (pushOntoNext 253 0x47#8).pc.toNat + 2 ∧
    opOf 0x00#8 = none ∧ opOf 0x01#8 = some .hlt ∧ opOf 0x47#8 = some .prn ∧
    decodeOperands .prn [(pushOntoNext 4 0x47#8).mem.readCell 7] = .ok (.prn 0) ∧ 6 + Op.prn.len ≤ 256 ∧
    256 < 255 + Op.prn.len :=
  ⟨fun _ => rfl, by unfold State.Holds; decide, by unfold State.Holds; decide, by unfold State.Holds; decide,
    by unfold State.Holds; decide, by decide, by decide, by decide, by decide, by decide, rfl, by decide, by decide⟩
/-- The same with the operand byte of the stored opcode 8 (no register) and 7 (the last one), and the bytes of the next step
where the stored opcode stands in the last cell. -/
theorem witness_FetchSeesPush_operands :
    (((stateAt 4 [0x45#8, 0#8, 0#8, 8#8]).writeReg 0 0x47#8).writeReg 7 7#8).Holds (.push 0) ∧
    decodeOperands .prn [8#8] = .error (.registerOutOfRange 8#8) ∧ decodeOperands .prn [7#8] = .ok (.prn 7) ∧
    decode [0x47#8] = .error (.missingOperand 1) :=
  ⟨by unfold State.Holds; decide, rfl, rfl, rfl⟩
/-- P6's PUSH of 0x01 onto the byte after it: the next step halts (hand computed from R50 and R100). -/
theorem test_push_makes_hlt : after (pushOntoNext 6 0x01#8) (fun t => after t (fun u => (u.status, u.pc))) =
    some (some (.halted, 8#9)) := by decide
theorem witness_StackLastInFirstOut : (0 : RegIdx) ≠ 7 ∧ (6 : RegIdx) ≠ 7 ∧ (0 : RegIdx) ≠ 6 := by decide
theorem witness_RunLoopEnds : (runLoop 0 State.reset).status = .running ∧ (runLoop 1 State.reset).status ≠ .running := by
  decide
theorem witness_RunEndUnique : Reachable (stateAt 0 [0x01#8]) (stateAt 0 [0x01#8]).halt ∧
    (stateAt 0 [0x01#8]).halt.status ≠ .running ∧ EndsHalted (stateAt 0 [0x01#8]) (stateAt 0 [0x01#8]).halt :=
  ⟨⟨1, _, rfl, rfl⟩, by decide, ⟨1, _, rfl, rfl⟩, rfl⟩
/-- V61, at the last place a JMP fits. -/
theorem witness_SelfJumpRunsForever : (stateAt 254 [0x54#8, 3#8]).status = .running ∧
    ((stateAt 254 [0x54#8, 3#8]).writeReg 3 254#8).Holds (.jmp 3) ∧
    (((stateAt 254 [0x54#8, 3#8]).writeReg 3 254#8).readReg 3).toNat =
      ((stateAt 254 [0x54#8, 3#8]).writeReg 3 254#8).pc.toNat :=
  ⟨rfl, by unfold State.Holds; decide, by decide⟩
/-- The exchange of R0 and R5. -/
theorem witness_RegistersInterchangeable :
    let swap : RegIdx → RegIdx := fun r => if r = 0 then 5 else if r = 5 then 0 else r
    (∀ r, swap (swap r) = r) ∧ swap 7 = 7 ∧ swap 0 = 5 := by decide
theorem witness_TraceReadsOnly : State.reset.halt.status ≠ .running ∧
    (stateAt 255 []).traceRecord.bytes[2]? = some none := by decide
theorem witness_InvHoldsAfterLoad : boot [0x82#8] = .ok (stateAt 0 [0x82#8]) := by rfl
/-- A state of the invariant with a step. -/
theorem witness_InvKeptByEveryStep : EngineInv (stateAt 0 [0x01#8]) ∧ step (stateAt 0 [0x01#8]) = .next (stateAt 0 [0x01#8]).halt :=
  ⟨⟨by decide, .inl rfl, by decide, (fun h => nomatch h), (fun _ h => nomatch h)⟩, rfl⟩
theorem witness_InvHoldsOnEveryRun : boot [] = .ok State.reset ∧
    Reachable State.reset (State.reset.raise (.illegalInstruction 0#9 0#8)) := ⟨rfl, 1, _, rfl, rfl⟩

end Sys2Proof.Tests
end

section
/-! SUPPORT. `effect`: the next state each instruction gives, as a function. Execution always has one (R85), so a
fact about the execute phase is a fact about `effect`. Below it stand what `effect` does to each element of the state, and how it
goes together with a change of FL, with a write of a register, and with a renaming of the registers. -/

namespace Sys2Proof.Machine

/-- The state an instruction's execution gives. -/
def effect : Instr → State → State
  | .hlt, s => s.halt
  | .ldi rA imm8, s => (s.writeReg rA imm8).advance .ldi
  | .prn rA, s => (s.emit (s.readReg rA)).advance .prn
  | .mul rA rB, s => (s.writeReg rA (aluMul (s.readReg rA) (s.readReg rB))).advance .mul
  | .cmp rA rB, s => (s.writeFl (compareFlags (s.readReg rA) (s.readReg rB))).advance .cmp
  | .jmp rA, s => s.jump (s.readReg rA)
  | .jeq rA, s => branchIf s.flagE .jeq rA s
  | .jne rA, s => branchIf (!s.flagE) .jne rA s
  | .push rA, s => State.advance { s.decSp with mem := s.mem.writeCell (pushAddr s) (s.decSp.readReg rA) } .push
  | .pop rA, s => (s.writeReg rA (s.mem.readCell s.sp.toNat)).incSp.advance .pop

/-- Every instruction executes to a next state, and that is its effect (R85). -/
theorem exec_eq_effect (i : Instr) (s : State) : exec i s = .next (effect i s) := by
  cases i with
  | push rA => exact exec_push s rA
  | pop rA => exact exec_pop s rA
  | _ => rfl

theorem exec_eq_next_iff {i : Instr} {s t : State} : exec i s = .next t ↔ effect i s = t := by
  simp [exec_eq_effect]

/-! ## Each element of the state -/

/-- FL is written by CMP alone (R28). -/
theorem effect_fl {i : Instr} (hi : i.op ≠ .cmp) (s : State) : (effect i s).fl = s.fl := by
  cases i with
  | cmp rA rB => exact absurd rfl hi
  | jeq rA => exact branchIf_fl ..
  | jne rA => exact branchIf_fl ..
  | _ => rfl

/-- FL keeps to its four values (R27, R28). -/
theorem effect_fl_valid (i : Instr) {s : State} (hs : s.fl = 0#8 ∨ s.fl = flE ∨ s.fl = flG ∨ s.fl = flL) :
    (effect i s).fl = 0#8 ∨ (effect i s).fl = flE ∨ (effect i s).fl = flG ∨ (effect i s).fl = flL := by
  by_cases hi : i.op = .cmp
  · cases i with
    | cmp rA rB =>
      change compareFlags _ _ = _ ∨ compareFlags _ _ = _ ∨ compareFlags _ _ = _ ∨ compareFlags _ _ = _
      exact .inr ((compareFlags_cases (s.readReg rA) (s.readReg rB)).imp_right Or.symm)
    | _ => cases hi
  · rwa [effect_fl hi]

/-- Execution keeps the canonical form of memory: PUSH alone writes to it, at an address below 256 (R41). -/
theorem effect_mem_wf (i : Instr) {s : State} (hs : s.mem.wf = true) : (effect i s).mem.wf = true := by
  cases i with
  | push rA => exact writeCell_wf (pushAddr_lt s) _ hs
  | jeq rA => simpa [effect] using hs
  | jne rA => simpa [effect] using hs
  | _ => exact hs

/-- HLT alone changes the run status (R101). -/
theorem effect_status {i : Instr} (hi : i ≠ .hlt) (s : State) : (effect i s).status = s.status := by
  cases i with
  | hlt => exact absurd rfl hi
  | jeq rA => exact branchIf_status ..
  | jne rA => exact branchIf_status ..
  | _ => rfl

theorem branchIf_pc (taken : Bool) (o : Op) (rA : RegIdx) (s : State) :
    (branchIf taken o rA s).pc = if taken then (s.jump (s.readReg rA)).pc else (s.advance o).pc := by
  unfold branchIf; split <;> rfl

/-- pc stays, goes to a register's value, or advances by the instruction's length (R86). -/
theorem effect_pc_cases (i : Instr) (s : State) :
    (effect i s).pc = s.pc ∨ (∃ target, (effect i s).pc = (s.jump target).pc) ∨
      (effect i s).pc = (s.advance i.op).pc := by
  have branch (taken : Bool) (o : Op) (rA : RegIdx) :
      (∃ target, (branchIf taken o rA s).pc = (s.jump target).pc) ∨
        (branchIf taken o rA s).pc = (s.advance o).pc := by
    rw [branchIf_pc]
    cases taken
    · exact .inr rfl
    · exact .inl ⟨_, rfl⟩
  cases i with
  | hlt => exact .inl rfl
  | jmp rA => exact .inr (.inl ⟨_, rfl⟩)
  | jeq rA => exact .inr (branch ..)
  | jne rA => exact .inr (branch ..)
  | _ => exact .inr (.inr rfl)

/-- From an address of memory, execution leads to a pc of at most 258 (R25, R86). -/
theorem effect_pc_le (i : Instr) {s : State} (hs : s.pc.toNat < 256) : (effect i s).pc.toNat ≤ 258 := by
  rcases effect_pc_cases i s with h | ⟨target, h⟩ | h
  · rw [h]; omega
  · have := target.isLt
    rw [h, jump_pc_toNat]; omega
  · have := len_le_three i.op
    rw [h, advance_pc_toNat hs]; omega

theorem readReg_branchIf (taken : Bool) (o : Op) (rA r : RegIdx) (s : State) :
    (branchIf taken o rA s).readReg r = s.readReg r :=
  State.readReg_congr (branchIf_regs ..) r

/-- A register outside an instruction's written set keeps its value (R24). -/
theorem effect_readReg {i : Instr} {r : RegIdx} (hr : r ∉ regWrites i) (s : State) :
    (effect i s).readReg r = s.readReg r := by
  cases i with
  | ldi rA imm8 => exact State.readReg_writeReg_ne s (fun h => hr (by simp [regWrites, h])) _
  | mul rA rB => exact State.readReg_writeReg_ne s (fun h => hr (by simp [regWrites, h])) _
  | push rA => exact State.readReg_writeReg_ne s (fun h => hr (by simp [regWrites, ← h])) _
  | pop rA =>
    obtain ⟨hA, h7⟩ : r ≠ rA ∧ r ≠ 7 := by simpa [regWrites] using hr
    exact (State.readReg_writeReg_ne _ h7.symm _).trans (State.readReg_writeReg_ne s hA.symm _)
  | jeq rA => exact readReg_branchIf ..
  | jne rA => exact readReg_branchIf ..
  | _ => rfl

/-! ## FL changed before the instruction -/

theorem branchIf_writeFl (taken : Bool) (o : Op) (rA : RegIdx) (s : State) (v : Byte) :
    branchIf taken o rA (s.writeFl v) = (branchIf taken o rA s).writeFl v := by
  cases taken <;> rfl

/-- CMP does the same whatever FL was, and overwrites it (R28, R126). -/
theorem effect_cmp_writeFl (rA rB : RegIdx) (s : State) (v : Byte) :
    effect (.cmp rA rB) (s.writeFl v) = effect (.cmp rA rB) s := rfl

/-- Any other instruction does the same and keeps the changed FL; a conditional jump where bit 0 is unchanged (R28). -/
theorem effect_writeFl {i : Instr} (hi : i.op ≠ .cmp) {s : State} {v : Byte}
    (hv : i.op = .jeq ∨ i.op = .jne → v.getLsbD 0 = s.fl.getLsbD 0) :
    effect i (s.writeFl v) = (effect i s).writeFl v := by
  cases i with
  | cmp rA rB => exact absurd rfl hi
  | jeq rA =>
    have hE : (s.writeFl v).flagE = s.flagE := hv (.inl rfl)
    simp only [effect, hE, branchIf_writeFl]
  | jne rA =>
    have hE : (s.writeFl v).flagE = s.flagE := hv (.inr rfl)
    simp only [effect, hE, branchIf_writeFl]
  | _ => rfl

/-! ## A register written before the instruction -/

section writeReg
variable {s : State} {r : RegIdx} {v : Byte}

theorem sp_writeReg_ne (hr : r ≠ 7) : (s.writeReg r v).sp = s.sp :=
  State.readReg_writeReg_ne s hr v

theorem decSp_writeReg_ne (hr : r ≠ 7) : (s.writeReg r v).decSp = s.decSp.writeReg r v := by
  simp only [State.decSp, sp_writeReg_ne hr, State.writeReg_comm s hr]

theorem incSp_writeReg_ne (hr : r ≠ 7) : (s.writeReg r v).incSp = s.incSp.writeReg r v := by
  simp only [State.incSp, sp_writeReg_ne hr, State.writeReg_comm s hr]

theorem branchIf_writeReg_ne {rA : RegIdx} (hr : r ≠ rA) (taken : Bool) (o : Op) :
    branchIf taken o rA (s.writeReg r v) = (branchIf taken o rA s).writeReg r v := by
  simp only [branchIf, State.readReg_writeReg_ne s hr]
  cases taken <;> rfl

/-- A register that an instruction writes and does not read has no influence at all (R24). -/
theorem effect_writeReg_of_written {i : Instr} (hread : r ∉ regReads i) (hwrite : r ∈ regWrites i) :
    effect i (s.writeReg r v) = effect i s := by
  cases i with
  | ldi rA imm8 =>
    obtain rfl : r = rA := by simpa [regWrites] using hwrite
    simp only [effect, State.writeReg_writeReg]
  | mul rA rB =>
    obtain rfl : r = rA := by simpa [regWrites] using hwrite
    exact absurd (List.mem_cons_self ..) hread
  | push rA =>
    obtain rfl : r = 7 := by simpa [regWrites] using hwrite
    exact absurd (by simp [regReads]) hread
  | pop rA =>
    have h7 : r ≠ 7 := by simpa [regReads] using hread
    obtain rfl : r = rA := by simpa [regWrites, h7] using hwrite
    simp only [effect, sp_writeReg_ne h7, State.writeReg_mem, State.writeReg_writeReg]
  | _ => cases hwrite

/-- A register that an instruction neither reads nor writes has no influence on anything but itself (R24). -/
theorem effect_writeReg_of_unused {i : Instr} (hread : r ∉ regReads i) (hwrite : r ∉ regWrites i) :
    effect i (s.writeReg r v) = (effect i s).writeReg r v := by
  cases i with
  | hlt => rfl
  | ldi rA imm8 =>
    have hA : r ≠ rA := by simpa [regWrites] using hwrite
    simp only [effect, State.writeReg_comm s hA]; rfl
  | prn rA =>
    have hA : r ≠ rA := by simpa [regReads] using hread
    simp only [effect, State.readReg_writeReg_ne s hA]; rfl
  | mul rA rB =>
    obtain ⟨hA, hB⟩ : r ≠ rA ∧ r ≠ rB := by simpa [regReads] using hread
    simp only [effect, State.readReg_writeReg_ne s hA, State.readReg_writeReg_ne s hB, State.writeReg_comm s hA]; rfl
  | cmp rA rB =>
    obtain ⟨hA, hB⟩ : r ≠ rA ∧ r ≠ rB := by simpa [regReads] using hread
    simp only [effect, State.readReg_writeReg_ne s hA, State.readReg_writeReg_ne s hB]; rfl
  | jmp rA =>
    have hA : r ≠ rA := by simpa [regReads] using hread
    simp only [effect, State.readReg_writeReg_ne s hA]; rfl
  | jeq rA => exact branchIf_writeReg_ne (by simpa [regReads] using hread) ..
  | jne rA => exact branchIf_writeReg_ne (by simpa [regReads] using hread) ..
  | push rA =>
    obtain ⟨hA, h7⟩ : r ≠ rA ∧ r ≠ 7 := by simpa [regReads] using hread
    simp only [effect, pushAddr, decSp_writeReg_ne h7, sp_writeReg_ne h7, State.readReg_writeReg_ne _ hA]; rfl
  | pop rA =>
    obtain ⟨hA, h7⟩ : r ≠ rA ∧ r ≠ 7 := by simpa [regWrites] using hwrite
    simp only [effect, sp_writeReg_ne h7, State.writeReg_comm s hA, incSp_writeReg_ne h7]; rfl

end writeReg

/-! ## Registers renamed before the instruction -/

/-- States whose registers read alike and that agree in everything else are equal. -/
theorem eq_of_readReg_eq {s t : State} (hregs : ∀ r, s.readReg r = t.readReg r)
    (hrest : { s with regs := t.regs } = t) : s = t := by
  have : s.regs = t.regs := Vector.ext fun k hk => hregs ⟨k, hk⟩
  rw [← hrest, ← this]

section rename
variable {f : RegIdx → RegIdx} (s : State) (r : RegIdx) (v : Byte)

@[simp] theorem readReg_rename : (s.rename f).readReg r = s.readReg (f r) := by
  simp [State.rename, State.readReg]

theorem sp_rename (h7 : f 7 = 7) : (s.rename f).sp = s.sp := by
  simp only [State.sp, readReg_rename, h7]

variable (hf : ∀ r, f (f r) = r)
include hf

/-- Renaming carries the register a value is written to. -/
theorem rename_writeReg : (s.writeReg r v).rename f = (s.rename f).writeReg (f r) v := by
  refine eq_of_readReg_eq (fun q => ?_) rfl
  have : r = f q ↔ f r = q := ⟨fun h => by rw [h, hf], fun h => by rw [← h, hf]⟩
  simp only [readReg_rename, State.readReg_writeReg, this]

theorem readReg_rename_apply : (s.rename f).readReg (f r) = s.readReg r := by
  rw [readReg_rename, hf]

theorem rename_branchIf (taken : Bool) (o : Op) (rA : RegIdx) :
    branchIf taken o (f rA) (s.rename f) = (branchIf taken o rA s).rename f := by
  simp only [branchIf, readReg_rename_apply s rA hf]
  cases taken <;> rfl

variable (h7 : f 7 = 7)
include h7

theorem rename_decSp : s.decSp.rename f = (s.rename f).decSp := by
  simp only [State.decSp, rename_writeReg s _ _ hf, sp_rename s h7, h7]

theorem rename_incSp : s.incSp.rename f = (s.rename f).incSp := by
  simp only [State.incSp, rename_writeReg s _ _ hf, sp_rename s h7, h7]

/-- An exchange of registers that keeps the stack pointer goes through every instruction (R20, R22). -/
theorem effect_rename (i : Instr) : effect (i.rename f) (s.rename f) = (effect i s).rename f := by
  cases i with
  | hlt => rfl
  | ldi rA imm8 =>
    simp only [effect, Instr.rename, ← rename_writeReg s _ _ hf]; rfl
  | prn rA =>
    simp only [effect, Instr.rename, readReg_rename_apply s _ hf]; rfl
  | mul rA rB =>
    simp only [effect, Instr.rename, readReg_rename_apply s _ hf, ← rename_writeReg s _ _ hf]; rfl
  | cmp rA rB =>
    simp only [effect, Instr.rename, readReg_rename_apply s _ hf]; rfl
  | jmp rA =>
    simp only [effect, Instr.rename, readReg_rename_apply s _ hf]; rfl
  | jeq rA => exact rename_branchIf s hf ..
  | jne rA => exact rename_branchIf s hf ..
  | push rA =>
    simp only [effect, Instr.rename, pushAddr, ← rename_decSp s hf h7, readReg_rename_apply _ _ hf, sp_rename _ h7]; rfl
  | pop rA =>
    simp only [effect, Instr.rename, sp_rename s h7, ← rename_writeReg s _ _ hf, ← rename_incSp _ hf h7]; rfl

end rename

end Sys2Proof.Machine
end

section
/-! SUPPORT. Why a fetch gives no instruction: the error it raises names what stands at pc (R81 to R84, R201, R202). -/

namespace Sys2Proof

theorem decodeReg_error {b : Byte} {e : DecodeError} (h : decodeReg b = .error e) :
    e = .registerOutOfRange b ∧ 8 ≤ b.toNat := by
  by_cases hb : b.toNat < 8
  · rw [decodeReg_of_lt hb] at h; cases h
  · have hb : 8 ≤ b.toNat := Nat.le_of_not_lt hb
    rw [decodeReg_of_ge hb] at h
    injection h with h
    exact ⟨h.symm, hb⟩

/-- `e` reports a byte of `bs` that is no register operand (R63). -/
def ReportsRegister (bs : List Byte) (e : DecodeError) : Prop :=
  ∃ b ∈ bs, e = .registerOutOfRange b ∧ 8 ≤ b.toNat

theorem reportsRegister_of_decodeReg {bs : List Byte} {b : Byte} {e : DecodeError} (hb : b ∈ bs)
    (h : decodeReg b = .error e) : ReportsRegister bs e :=
  ⟨b, hb, decodeReg_error h⟩

/-- A computation that raises does so in its first part or, after it, in the rest. -/
theorem bind_eq_error {α β : Type} {x : Except DecodeError α} {f : α → Except DecodeError β} {e : DecodeError}
    (h : x >>= f = .error e) : x = .error e ∨ ∃ a, f a = .error e := by
  cases x with
  | error e' => cases h; exact .inl rfl
  | ok a => exact .inr ⟨a, h⟩

theorem decodeR_error {mk : RegIdx → Instr} {b1 : Byte} {e : DecodeError} (h : decodeR mk [b1] = .error e) :
    ReportsRegister [b1] e := by
  obtain h1 | ⟨rA, h⟩ := bind_eq_error h
  · exact reportsRegister_of_decodeReg (by simp) h1
  · cases h

theorem decodeRR_error {mk : RegIdx → RegIdx → Instr} {b1 b2 : Byte} {e : DecodeError}
    (h : decodeRR mk [b1, b2] = .error e) : ReportsRegister [b1, b2] e := by
  obtain h1 | ⟨rA, h⟩ := bind_eq_error h
  · exact reportsRegister_of_decodeReg (by simp) h1
  obtain h2 | ⟨rB, h⟩ := bind_eq_error h
  · exact reportsRegister_of_decodeReg (by simp) h2
  · cases h

theorem decodeRI_error {mk : RegIdx → Byte → Instr} {b1 b2 : Byte} {e : DecodeError}
    (h : decodeRI mk [b1, b2] = .error e) : ReportsRegister [b1, b2] e := by
  obtain h1 | ⟨rA, h⟩ := bind_eq_error h
  · exact reportsRegister_of_decodeReg (by simp) h1
  · cases h

/-- With all its operand bytes there, a row of the table refuses them only for a register byte of 8 or more (R84). -/
theorem decodeOperands_error {o : Op} {bs : List Byte} {e : DecodeError} (hbs : bs.length = o.format.operandCount)
    (h : decodeOperands o bs = .error e) : ReportsRegister bs e := by
  cases o with
  | hlt => cases h
  | ldi =>
    match bs, hbs, h with
    | [b1, b2], _, h => exact decodeRI_error h
  | mul =>
    match bs, hbs, h with
    | [b1, b2], _, h => exact decodeRR_error h
  | cmp =>
    match bs, hbs, h with
    | [b1, b2], _, h => exact decodeRR_error h
  | _ => obtain ⟨b1, rfl⟩ := List.length_eq_one_iff.mp hbs; exact decodeR_error h

namespace Machine

/-- The operand decode raises OutOfRange(register) alone, for one of the bytes it was given (R84, R201). -/
theorem decodeFetched_error {pc : Pc} {o : Op} {bs : List Byte} {e : Error} (hbs : bs.length = o.format.operandCount)
    (h : decodeFetched pc o bs = .error e) : ∃ b ∈ bs, e = .outOfRange .register b.toNat ∧ 8 ≤ b.toNat := by
  unfold decodeFetched at h
  split at h
  case h_1 => cases h
  case h_2 de hde =>
    obtain ⟨b, hb, rfl, h8⟩ := decodeOperands_error hbs hde
    injection h with h
    exact ⟨b, hb, h.symm, h8⟩

/-- The error of a fetch is one of the invariant's, and it names what stands at pc (R81 to R84, R201, R202). -/
theorem errorAt_of_fetch {s : State} {e : Error} (hpc : s.pc.toNat ≤ 258) (h : s.fetch = .error e) : ErrorAt s e := by
  by_cases hp : 256 ≤ s.pc.toNat
  · rw [fetch_of_ge hp] at h
    injection h with h; subst h
    exact ⟨hp, hpc, Nat.le_refl _, Nat.le_add_right ..⟩
  have hp : s.pc.toNat < 256 := Nat.lt_of_not_le hp
  cases ho : opOf (s.mem.readCell s.pc.toNat) with
  | none =>
    rw [fetch_of_illegal hp ho] at h
    injection h with h; subst h
    exact ⟨rfl, hp, rfl, ho⟩
  | some o =>
    by_cases hn : 256 < s.pc.toNat + o.len
    · rw [fetch_of_short hp ho hn] at h
      injection h with h; subst h
      have := len_le_three o
      exact ⟨Nat.le_refl _, by omega, by omega, by omega⟩
    have hn : s.pc.toNat + o.len ≤ 256 := Nat.le_of_not_lt hn
    rw [fetch_of_fits ho hn] at h
    obtain ⟨b, hb, rfl, h8⟩ := decodeFetched_error (by simp) h
    have hcount : 0 < o.format.operandCount := by simpa using List.length_pos_of_mem hb
    have hlt := b.isLt
    unfold Op.len at hn
    exact ⟨h8, by omega, by omega⟩

end Machine

end Sys2Proof
end

section
/-! PROOF. The invariant is kept by every step (R25, R27, R100, R204). -/

namespace Sys2Proof.Machine

/-- Raising an error changes nothing that an error names (R203). -/
theorem errorAt_raise (s : State) (e e' : Error) : ErrorAt (s.raise e') e = ErrorAt s e := rfl

/-- Raising the fetch's error keeps the invariant. -/
theorem engineInv_raise {s : State} (hs : EngineInv s) {e : Error} (he : s.fetch = .error e) :
    EngineInv (s.raise e) where
  memWf := hs.memWf
  flags := hs.flags
  pcBound := hs.pcBound
  haltedAtHlt h := nomatch h
  errorAt e' h := by
    injection h with h; subst h
    rw [errorAt_raise]
    exact errorAt_of_fetch hs.pcBound he

/-- A fetched HLT stands at pc as the byte 0x01 (R100). -/
theorem readCell_of_fetch_hlt {s : State} (h : s.fetch = .ok .hlt) :
    s.pc.toNat < 256 ∧ s.mem.readCell s.pc.toNat = 0x01#8 := by
  obtain ⟨hp, ho, -⟩ := fetch_ok h
  exact ⟨hp, opcode_of_opOf ho⟩

/-- Executing the fetched instruction keeps the invariant. -/
theorem engineInv_effect {s : State} (hs : EngineInv s) (hrun : s.status = .running) {i : Instr}
    (hi : s.fetch = .ok i) : EngineInv (effect i s) := by
  have hp : s.pc.toNat < 256 := (fetch_ok hi).1
  have hstatus : i = .hlt ∨ (effect i s).status = .running := by
    by_cases h : i = .hlt
    · exact .inl h
    · exact .inr ((effect_status h s).trans hrun)
  refine ⟨effect_mem_wf i hs.memWf, effect_fl_valid i hs.flags, effect_pc_le i hp, fun h => ?_, fun e h => ?_⟩
  · obtain rfl | hr := hstatus
    · exact readCell_of_fetch_hlt hi
    · rw [hr] at h; cases h
  · obtain rfl | hr := hstatus
    · cases h
    · rw [hr] at h; cases h

/-- Settles O50: a step raises the fetch's error or executes the fetched instruction, and both keep the invariant. -/
theorem invKeptByEveryStep : Obligations.InvKeptByEveryStep := by
  intro s t hs h
  obtain ⟨hrun, ⟨i, hi, ht⟩ | ⟨e, he, rfl⟩⟩ := step_cases h
  · rw [exec_eq_next_iff] at ht
    exact ht ▸ engineInv_effect hs hrun hi
  · exact engineInv_raise hs he

end Sys2Proof.Machine
end

section
/-! PROOF. The canonical form of memory is one for each content (log entry 11). -/

namespace Sys2Proof.Machine

/-- Below its lowest listed address, a canonical memory reads as unwritten. -/
theorem readCell_of_lt_low {low a : Nat} {m : Memory} (hm : Memory.wfFrom low m = true) (ha : a < low) :
    m.readCell a = 0#8 := by
  induction m generalizing low with
  | nil => rfl
  | cons c m ih =>
    obtain ⟨b, v⟩ := c
    obtain ⟨hlow, -, -, hm⟩ := (wfFrom_cons ..).mp hm
    rw [Memory.readCell, if_neg (by omega)]
    exact ih hm (by omega)

/-- The first listed address of a canonical memory is the first one that does not read as unwritten. -/
theorem head_le_of_readCell_ne {a b low : Nat} {v : Byte} {m : Memory} (hm : Memory.wfFrom low ((b, v) :: m) = true)
    (ha : Memory.readCell a ((b, v) :: m) ≠ 0#8) : b ≤ a := by
  refine Nat.le_of_not_lt fun h => ?_
  obtain ⟨-, hb, hv, hm⟩ := (wfFrom_cons ..).mp hm
  exact ha (readCell_of_lt_low (low := b) ((wfFrom_cons ..).mpr ⟨Nat.le_refl _, hb, hv, hm⟩) (by omega))

theorem readCell_cons_self (a : Nat) (v : Byte) (m : Memory) : Memory.readCell a ((a, v) :: m) = v := by
  simp [Memory.readCell]

theorem readCell_cons_ne {a b : Nat} (h : a ≠ b) (v : Byte) (m : Memory) :
    Memory.readCell b ((a, v) :: m) = m.readCell b := by
  simp [Memory.readCell, h]

/-- Canonical memories that read alike are equal lists: their first listed addresses are the same, and then their rests
read alike. -/
theorem eq_of_readCell_eq {low : Nat} {m m' : Memory} (hm : Memory.wfFrom low m = true)
    (hm' : Memory.wfFrom low m' = true) (h : ∀ a, a < 256 → m.readCell a = m'.readCell a) : m = m' := by
  induction m generalizing low m' with
  | nil =>
    cases m' with
    | nil => rfl
    | cons c m' =>
      obtain ⟨b, w⟩ := c
      obtain ⟨-, hb, hw, -⟩ := (wfFrom_cons ..).mp hm'
      exact absurd ((h b hb).trans (readCell_cons_self ..)) hw.symm
  | cons c m ih =>
    obtain ⟨a, v⟩ := c
    obtain ⟨-, ha, hv, hrest⟩ := (wfFrom_cons ..).mp hm
    cases m' with
    | nil => exact absurd ((readCell_cons_self ..).symm.trans (h a ha)) hv
    | cons c' m' =>
      obtain ⟨b, w⟩ := c'
      obtain ⟨-, hb, hw, hrest'⟩ := (wfFrom_cons ..).mp hm'
      have hab : a = b := by
        refine Nat.le_antisymm (head_le_of_readCell_ne hm ?_) (head_le_of_readCell_ne hm' ?_)
        · rwa [h b hb, readCell_cons_self]
        · rwa [← h a ha, readCell_cons_self]
      subst hab
      have hvw : v = w := by simpa only [readCell_cons_self] using h a ha
      have hreads (x : Nat) (hx : x < 256) : Memory.readCell x m = Memory.readCell x m' := by
        by_cases hxa : a = x
        · subst hxa
          rw [readCell_of_lt_low hrest (Nat.lt_succ_self a), readCell_of_lt_low hrest' (Nat.lt_succ_self a)]
        · simpa only [readCell_cons_ne hxa] using h x hx
      rw [hvw, ih hrest hrest' hreads]

/-- Settles O5: below 256 a read answers the cell, so the memories agree cell by cell. -/
theorem memoryCanonicalUnique : Obligations.MemoryCanonicalUnique := by
  intro m m' hm hm' h
  refine eq_of_readCell_eq hm hm' fun a ha => ?_
  simpa [memRead_of_lt ha] using h a ha

end Sys2Proof.Machine
end

section
/-! PROOF. FL, the registers and their renaming, in the execute phase (R20, R22, R24, R28). -/

namespace Sys2Proof.Machine

/-- A comparison sets exactly one of the bits L, G and E (R28, R124). -/
theorem compareFlags_sets_one (a b : Byte) :
    ((compareFlags a b).getLsbD 2).toNat + ((compareFlags a b).getLsbD 1).toNat +
      ((compareFlags a b).getLsbD 0).toNat = 1 := by
  rcases compareFlags_cases a b with h | h | h <;> rw [h] <;> rfl

/-- Settles O35: CMP overwrites FL whatever it was; every other instruction carries a changed FL along, a conditional jump
where bit 0 is the same. -/
theorem flagsUse : Obligations.FlagsUse := by
  refine ⟨fun i s t h hi => ?_, fun i s v hjeq hjne => ?_, fun i s v hi hv => ?_, fun s t rA rB h => ?_, rfl, rfl, rfl⟩
  · exact exec_eq_next_iff.mp h ▸ effect_fl hi s
  · refine ⟨effect i s, exec_eq_effect i s, exec_eq_next_iff.mpr ?_⟩
    by_cases hi : i.op = .cmp
    · cases i with
      | cmp rA rB => exact effect_cmp_writeFl rA rB s v
      | _ => cases hi
    · rw [if_neg hi]
      exact effect_writeFl hi fun h => absurd h (not_or.mpr ⟨hjeq, hjne⟩)
  · refine ⟨effect i s, exec_eq_effect i s, exec_eq_next_iff.mpr (effect_writeFl ?_ fun _ => hv)⟩
    rcases hi with hi | hi <;> simp [hi]
  · exact exec_eq_next_iff.mp h ▸ compareFlags_sets_one (s.readReg rA) (s.readReg rB)

/-- Settles O37: an unread register is overwritten by the instruction, or goes through it untouched. -/
theorem registerUse : Obligations.RegisterUse := by
  refine ⟨fun i s t r h hr => ?_, fun i s r v hread => ?_⟩
  · exact exec_eq_next_iff.mp h ▸ effect_readReg hr s
  · refine ⟨effect i s, exec_eq_effect i s, exec_eq_next_iff.mpr ?_⟩
    split
    next hwrite => exact effect_writeReg_of_written hread hwrite
    next hwrite => exact effect_writeReg_of_unused hread hwrite

/-- Settles O46: the renaming goes through every instruction. -/
theorem registersInterchangeable : Obligations.RegistersInterchangeable := by
  intro swap i s hswap h7
  exact ⟨effect i s, exec_eq_effect i s, exec_eq_next_iff.mpr (effect_rename s hswap h7 i)⟩

end Sys2Proof.Machine
end

section
/-! PROOF. The trace reads the state and changes nothing (R34). -/

namespace Sys2Proof.Machine

/-- A byte of the trace is the byte MemRead answers, absent where MemRead raises (R34, R40). -/
theorem traceByte_eq_memRead (m : Memory) (a : Nat) :
    traceByte m a = match memRead m a with | .ok v => some v | .error _ => none := by
  by_cases ha : a < 256
  · simp [traceByte, memRead_of_lt ha, ha]
  · simp [traceByte, memRead_of_ge (Nat.le_of_not_lt ha), ha]

/-- The trace shows the three bytes from pc. -/
theorem traceRecord_bytes_getElem? {s : State} {k : Nat} {b : Option Byte} (h : s.traceRecord.bytes[k]? = some b) :
    b = traceByte s.mem (s.pc.toNat + k) := by
  match k, h with
  | 0, h | 1, h | 2, h => exact (Option.some.inj h).symm

theorem stepTraced_fst_of_not_running {s : State} (h : s.status ≠ .running) : (stepTraced s).1 = none := by
  simp [stepTraced, h]

/-- Settles O47: the record is made of the state's own elements, and the traced step's outcome is the step's. -/
theorem traceReadsOnly : Obligations.TraceReadsOnly := by
  refine fun s => ⟨rfl, rfl, rfl, fun k b h => ?_, rfl, stepTraced_fst_of_not_running⟩
  rw [traceRecord_bytes_getElem? h]
  exact traceByte_eq_memRead ..

end Sys2Proof.Machine
end

section
/-! SUPPORT. What the execute phase does to memory, and what another memory in the state does to it (R41, R47). -/

namespace Sys2Proof.Machine

/-- The cell PUSH stores to reads the register's value after the decrement; every other cell reads as before (R160). -/
theorem readCell_effect_push (rA : RegIdx) (s : State) (a : Nat) :
    (effect (.push rA) s).mem.readCell a = if a = pushAddr s then s.decSp.readReg rA else s.mem.readCell a := by
  simp only [@eq_comm _ a]
  exact readCell_writeCell ..

/-- Memory is written by PUSH alone, at the decremented stack pointer alone (R41). -/
theorem readCell_effect {i : Instr} {s : State} {a : Nat} (h : i.op ≠ .push ∨ a ≠ pushAddr s) :
    (effect i s).mem.readCell a = s.mem.readCell a := by
  cases i with
  | push rA => rw [readCell_effect_push, if_neg (h.resolve_left fun hop => hop rfl)]
  | jeq rA => exact congrArg (Memory.readCell a) (branchIf_mem ..)
  | jne rA => exact congrArg (Memory.readCell a) (branchIf_mem ..)
  | _ => rfl

theorem branchIf_withMem (taken : Bool) (o : Op) (rA : RegIdx) (s : State) (m : Memory) :
    branchIf taken o rA { s with mem := m } = { branchIf taken o rA s with mem := m } := by
  cases taken <;> rfl

/-- An instruction but PUSH and POP goes together with any memory (R41). -/
theorem effect_withMem {i : Instr} (hpush : i.op ≠ .push) (hpop : i.op ≠ .pop) (s : State) (m : Memory) :
    effect i { s with mem := m } = { effect i s with mem := m } := by
  cases i with
  | push rA => exact absurd rfl hpush
  | pop rA => exact absurd rfl hpop
  | jeq rA => exact branchIf_withMem ..
  | jne rA => exact branchIf_withMem ..
  | _ => rfl

/-- POP reads the byte at the stack pointer and no other (R41, R162). -/
theorem effect_pop_withMem (rA : RegIdx) {s : State} {m : Memory}
    (h : m.readCell s.sp.toNat = s.mem.readCell s.sp.toNat) :
    effect (.pop rA) { s with mem := m } = { effect (.pop rA) s with mem := m } := by
  simp only [effect, ← h]; rfl

/-- PUSH into another memory stores the same byte at the same address (R41, R160). -/
theorem effect_push_withMem (rA : RegIdx) (s : State) (m : Memory) :
    effect (.push rA) { s with mem := m } =
      { effect (.push rA) s with mem := m.writeCell (pushAddr s) (s.decSp.readReg rA) } := rfl

end Sys2Proof.Machine
end

section
/-! SUPPORT. The fetch phases and the list decoder read the same bytes alike (R81 to R84), and the bytes an instruction
encodes to are fetched as that instruction (R61 to R64). -/

namespace Sys2Proof

/-- The decoder of a legal opcode: its operands, and the bytes after them (R84). -/
theorem decode_of_legal {b : Byte} {o : Op} (h : opOf b = some o) (rest : List Byte) :
    decode (b :: rest) = (decodeOperands o rest).map (·, rest.drop o.format.operandCount) := by
  simp only [decode, h]
  cases decodeOperands o rest <;> rfl

theorem decode_of_illegal {b : Byte} (h : opOf b = none) (rest : List Byte) :
    decode (b :: rest) = .error (.illegalOpcode b) := by
  simp only [decode, h]

/-- No byte after a row's operands has a part in their decode (R61). -/
theorem decodeOperands_take (o : Op) (bs : List Byte) :
    decodeOperands o (bs.take o.format.operandCount) = decodeOperands o bs := by
  match bs with
  | [] => rw [List.take_nil]
  | [b1] => cases o <;> rfl
  | b1 :: b2 :: bs => cases o <;> rfl

/-- The first operand byte that is not there is the one reported (R83). -/
theorem decodeOperands_of_short {o : Op} {bs : List Byte} (h : bs.length < o.format.operandCount) :
    decodeOperands o bs = .error (.missingOperand (bs.length + 1)) := by
  match bs, h with
  | [], h =>
    cases o with
    | hlt => nomatch h
    | _ => rfl
  | [b1], h =>
    cases o with
    | ldi | mul | cmp => rfl
    | _ => nomatch h
  | b1 :: b2 :: bs, h =>
    have hlen : 1 + o.format.operandCount ≤ 3 := len_le_three o
    simp only [List.length_cons] at h
    omega

theorem decodeReg_regByte (r : RegIdx) : decodeReg (regByte r) = .ok r :=
  decodeReg_of_val (regByte_toNat r).symm

/-- An instruction's operand bytes decode to it (R61, R63, R64). -/
theorem decodeOperands_operands (i : Instr) : decodeOperands i.op i.operands = .ok i := by
  cases i <;> simp [decodeOperands, Instr.op, Instr.operands, decodeR, decodeRR, decodeRI, decodeReg_regByte] <;> rfl

namespace Machine

theorem decodeFetched_eq (pc : Pc) (o : Op) (bs : List Byte) :
    decodeFetched pc o bs = (decodeOperands o bs).mapError (toError pc) := by
  unfold decodeFetched
  cases decodeOperands o bs <;> rfl

/-! ## The bytes from pc -/

theorem bytesFrom_of_ge {s : State} (h : 256 ≤ s.pc.toNat) : s.bytesFrom = [] := by
  simp [State.bytesFrom, Nat.sub_eq_zero_of_le h]

/-- The bytes from pc begin with the opcode byte. -/
theorem bytesFrom_of_lt {s : State} (h : s.pc.toNat < 256) :
    s.bytesFrom = s.mem.readCell s.pc.toNat ::
      (List.range (255 - s.pc.toNat)).map (fun k => s.mem.readCell (s.pc.toNat + 1 + k)) := by
  have hn : 256 - s.pc.toNat = 255 - s.pc.toNat + 1 := by omega
  rw [State.bytesFrom, hn, List.range_succ_eq_map]
  simp [Function.comp_def, Nat.add_assoc, Nat.add_comm 1]

/-- The fetch answers what the decoder answers of the bytes from pc, its refusals as the errors of R200 (R81 to R84). -/
theorem fetch_eq_decode (s : State) :
    s.fetch = ((decode s.bytesFrom).map Prod.fst).mapError (toError s.pc) := by
  by_cases hp : 256 ≤ s.pc.toNat
  · rw [fetch_of_ge hp, bytesFrom_of_ge hp]; rfl
  have hp : s.pc.toNat < 256 := Nat.lt_of_not_le hp
  rw [bytesFrom_of_lt hp]
  cases ho : opOf (s.mem.readCell s.pc.toNat) with
  | none => rw [fetch_of_illegal hp ho, decode_of_illegal ho]; rfl
  | some o =>
    have hmap (r : Except DecodeError Instr) (rest : List Byte) : (r.map (·, rest)).map Prod.fst = r := by
      cases r <;> rfl
    rw [decode_of_legal ho, hmap]
    have hlen : o.len = 1 + o.format.operandCount := rfl
    by_cases hn : s.pc.toNat + o.len ≤ 256
    · rw [fetch_of_fits ho hn, decodeFetched_eq, ← decodeOperands_take o (List.map _ (List.range (255 - _))),
        ← List.map_take, List.take_range, Nat.min_eq_left (by omega)]
    · rw [fetch_of_short hp ho (Nat.lt_of_not_le hn), decodeOperands_of_short (by simp; omega)]
      have hend : s.pc.toNat + (255 - s.pc.toNat + 1) = 256 := by omega
      simp [Except.mapError, toError, hend]

theorem stepRaises_of_fetch {s : State} (hs : s.status = .running) {e : Error} (h : s.fetch = .error e) :
    StepRaises s e :=
  step_of_fetch_error hs h

theorem step_of_decode {s : State} (hs : s.status = .running) {i : Instr} {rest : List Byte}
    (h : decode s.bytesFrom = .ok (i, rest)) : step s = exec i s :=
  step_of_fetch hs (by rw [fetch_eq_decode, h]; rfl)

theorem stepRaises_of_decode {s : State} (hs : s.status = .running) {e : DecodeError}
    (h : decode s.bytesFrom = .error e) : StepRaises s (toError s.pc e) :=
  stepRaises_of_fetch hs (by rw [fetch_eq_decode, h]; rfl)

/-! ## An instruction at pc -/

/-- The instruction whose bytes stand at pc is fetched (R81 to R84). -/
theorem fetch_of_holds {s : State} {i : Instr} (h : s.Holds i) : s.fetch = .ok i := by
  obtain ⟨hlen, hcell⟩ := h
  have hopcode : s.mem.readCell s.pc.toNat = i.op.opcode := hcell 0 (Nat.succ_pos _)
  have hoperands : (List.range i.op.format.operandCount).map (fun k => s.mem.readCell (s.pc.toNat + 1 + k)) =
      i.operands := by
    refine List.ext_getElem (by simp [operands_length]) fun k _ hk => ?_
    simpa [encode, Nat.add_assoc, Nat.add_comm 1] using hcell (k + 1) (Nat.succ_lt_succ hk)
  rw [fetch_of_fits (hopcode ▸ opOf_opcode i.op) (encode_length i ▸ hlen), hoperands, decodeFetched_eq,
    decodeOperands_operands]
  rfl

end Machine

end Sys2Proof
end

section
/-! PROOF. Memory: its access contract, who uses it, and a PUSH onto code (R40, R41, R45, R47, R50). -/

namespace Sys2Proof.Machine

/-- Settles O4: the range check, and a read after a write. -/
theorem memoryReadWrite : Obligations.MemoryReadWrite := by
  refine fun m a v => ⟨fun ha => ⟨memRead_of_ge ha m, memWrite_of_ge ha m v⟩, fun ha => ⟨memRead_of_lt ha m, ?_⟩⟩
  refine ⟨m.writeCell a v, memWrite_of_lt ha m v, ?_, fun b hb => ?_⟩
  · rw [memRead_of_lt ha, readCell_writeCell, if_pos rfl]
  · rw [memRead, memRead, readCell_writeCell, if_neg hb.symm]

/-- Settles O38: the execute phase goes together with a change of memory. -/
theorem memoryUse : Obligations.MemoryUse := by
  refine ⟨fun i s t a h ha => ?_, fun i s m hpush hpop => ?_, fun s m rA hsp => ?_,
    fun s m rA => ⟨pushAddr_withMem s m, ?_⟩⟩
  · exact exec_eq_next_iff.mp h ▸ readCell_effect ha
  · exact ⟨effect i s, exec_eq_effect i s, exec_eq_next_iff.mpr (effect_withMem hpush hpop s m)⟩
  · exact ⟨effect (.pop rA) s, exec_eq_effect _ s, exec_eq_next_iff.mpr (effect_pop_withMem rA hsp)⟩
  · refine ⟨effect (.push rA) s, m.writeCell (pushAddr s) (s.decSp.readReg rA), exec_eq_effect _ s,
      exec_eq_next_iff.mpr (effect_push_withMem rA s m), ?_, fun a ha => ?_⟩
    · rw [readCell_writeCell, readCell_effect_push, if_pos rfl, if_pos rfl]
    · rw [readCell_writeCell, if_neg ha.symm]

/-- Where the byte at pc is `v`: an illegal `v` raises, 0x01 halts, any other row takes its operand bytes (R82 to R84). -/
theorem step_of_opcode {t : State} (ht : t.status = .running) (hp : t.pc.toNat < 256) {v : Byte}
    (hv : t.mem.readCell t.pc.toNat = v) :
    (opOf v = none → StepRaises t (.illegalInstruction t.pc v)) ∧
    (v = 0x01#8 → step t = .next t.halt) ∧
    (∀ o, opOf v = some o →
      (256 < t.pc.toNat + o.len → StepRaises t (.outOfRange .memory 256)) ∧
      (t.pc.toNat + o.len ≤ 256 →
        ∀ operands, operands = (List.range o.format.operandCount).map
            (fun k => t.mem.readCell (t.pc.toNat + 1 + k)) →
          (∀ i, decodeOperands o operands = .ok i → step t = exec i t) ∧
          (∀ e, decodeOperands o operands = .error e → StepRaises t (toError t.pc e)))) := by
  subst hv
  refine ⟨fun ho => stepRaises_of_fetch ht (fetch_of_illegal hp ho), fun h1 => ?_, fun o ho => ⟨fun hn => ?_, ?_⟩⟩
  · have ho : opOf (t.mem.readCell t.pc.toNat) = some .hlt := by rw [h1]; exact opOf_opcode .hlt
    exact step_of_fetch ht (fetch_of_fits ho hp)
  · exact stepRaises_of_fetch ht (fetch_of_short hp ho hn)
  · rintro hn operands rfl
    have hfetch := fetch_of_fits ho hn
    rw [decodeFetched_eq] at hfetch
    exact ⟨fun i hi => step_of_fetch ht (by rw [hfetch, hi]; rfl),
      fun e he => stepRaises_of_fetch ht (by rw [hfetch, he]; rfl)⟩

/-- Settles O40: the next step fetches from the memory PUSH left, whose one changed cell reads the pushed value. -/
theorem fetchSeesPush : Obligations.FetchSeesPush := by
  intro s rA hrun hholds
  have hp : s.pc.toNat + 2 ≤ 256 := hholds.1
  have hexec := exec_eq_effect (.push rA) s
  have hcell := readCell_effect_push rA s
  have hpc : (effect (.push rA) s).pc.toNat = s.pc.toNat + 2 := advance_pc_toNat (s := s) (by omega) .push
  have htrun : (effect (.push rA) s).status = .running := hrun
  have hv : s.decSp.readReg rA = if rA = 7 then (effect (.push rA) s).readReg 7 else s.readReg rA := readReg_decSp s rA
  generalize effect (.push rA) s = t at *
  generalize s.decSp.readReg rA = v at *
  refine ⟨t, v, (step_of_fetch hrun (fetch_of_holds hholds)).trans hexec, hexec, hv, hpc, fun a ha => ?_, ?_, ?_⟩
  · rw [memRead_of_lt ha, hcell]
  · rintro bytes rfl
    simp only [← hcell, ← hpc]
    exact ⟨fun i rest => step_of_decode htrun, fun e => stepRaises_of_decode htrun⟩
  · intro haddr
    have hlt := pushAddr_lt s
    obtain ⟨hillegal, hhalt, hlegal⟩ := step_of_opcode htrun (by omega) (hcell t.pc.toNat)
    have hoperand (k : Nat) : t.mem.readCell (t.pc.toNat + 1 + k) = s.mem.readCell (s.pc.toNat + 3 + k) := by
      rw [hcell, if_neg (by omega), hpc]
    rw [if_pos (by omega)] at hillegal hhalt hlegal
    simp only [hoperand] at hlegal
    exact ⟨hillegal, hhalt, hlegal⟩

end Sys2Proof.Machine
end

section
/-! SUPPORT. When the operand decoder accepts and when it refuses, format by format (R61, R63, R64, R84). -/

namespace Sys2Proof

theorem bind_eq_ok_iff {α β : Type} {x : Except DecodeError α} {f : α → Except DecodeError β} {b : β} :
    x >>= f = .ok b ↔ ∃ a, x = .ok a ∧ f a = .ok b := by
  cases x <;> simp [bind, Except.bind]

theorem bind_eq_error_iff {α β : Type} {x : Except DecodeError α} {f : α → Except DecodeError β} {e : DecodeError} :
    x >>= f = .error e ↔ x = .error e ∨ ∃ a, x = .ok a ∧ f a = .error e := by
  cases x <;> simp [bind, Except.bind]

theorem opOf_eq_some_iff {b : Byte} {o : Op} : opOf b = some o ↔ b = o.opcode :=
  ⟨opcode_of_opOf, fun h => h ▸ opOf_opcode o⟩

theorem decodeReg_eq_ok_iff {b : Byte} {r : RegIdx} : decodeReg b = .ok r ↔ b = regByte r := by
  refine ⟨fun h => ?_, fun h => h ▸ decodeReg_regByte r⟩
  by_cases hb : b.toNat < 8
  · rw [decodeReg_of_lt hb] at h
    cases h
    exact BitVec.eq_of_toNat_eq (regByte_toNat ⟨b.toNat, hb⟩).symm
  · rw [decodeReg_of_ge (Nat.le_of_not_lt hb)] at h
    cases h

theorem decodeReg_eq_error_iff {b : Byte} {e : DecodeError} :
    decodeReg b = .error e ↔ 8 ≤ b.toNat ∧ e = .registerOutOfRange b :=
  ⟨fun h => (decodeReg_error h).symm, fun ⟨hb, he⟩ => he ▸ decodeReg_of_ge hb⟩

theorem exists_decodeReg_eq_ok_iff {b : Byte} : (∃ r, decodeReg b = .ok r) ↔ b.toNat < 8 := by
  refine ⟨fun ⟨r, h⟩ => ?_, fun h => ⟨_, decodeReg_of_lt h⟩⟩
  rw [decodeReg_eq_ok_iff.mp h, regByte_toNat]
  exact r.isLt

theorem exists_cons_eq_iff {b : Byte} {bs : List Byte} {P : Byte → List Byte → Prop} :
    (∃ b1 rest, b :: bs = b1 :: rest ∧ P b1 rest) ↔ P b bs :=
  ⟨fun ⟨_, _, h, hP⟩ => by cases h; exact hP, fun hP => ⟨b, bs, rfl, hP⟩⟩

theorem exists_cons_cons_eq_iff {b b' : Byte} {bs : List Byte} {P : Byte → Byte → List Byte → Prop} :
    (∃ b1 b2 rest, b :: b' :: bs = b1 :: b2 :: rest ∧ P b1 b2 rest) ↔ P b b' bs :=
  ⟨fun ⟨_, _, _, h, hP⟩ => by cases h; exact hP, fun hP => ⟨b, b', bs, rfl, hP⟩⟩

section formats
variable {b1 b2 : Byte} {bs : List Byte} {i : Instr} {e : DecodeError}

theorem decodeR_eq_ok {mk : RegIdx → Instr} (h : decodeR mk bs = .ok i) :
    ∃ rA rest, bs = regByte rA :: rest ∧ mk rA = i := by
  match bs, h with
  | _ :: rest, h =>
    obtain ⟨rA, h1, hi⟩ := bind_eq_ok_iff.mp h
    exact ⟨rA, rest, by rw [decodeReg_eq_ok_iff.mp h1], Except.ok.inj hi⟩

theorem decodeRI_eq_ok {mk : RegIdx → Byte → Instr} (h : decodeRI mk bs = .ok i) :
    ∃ rA imm8 rest, bs = regByte rA :: imm8 :: rest ∧ mk rA imm8 = i := by
  match bs, h with
  | _ :: imm8 :: rest, h =>
    obtain ⟨rA, h1, hi⟩ := bind_eq_ok_iff.mp h
    exact ⟨rA, imm8, rest, by rw [decodeReg_eq_ok_iff.mp h1], Except.ok.inj hi⟩

theorem decodeRR_eq_ok {mk : RegIdx → RegIdx → Instr} (h : decodeRR mk bs = .ok i) :
    ∃ rA rB rest, bs = regByte rA :: regByte rB :: rest ∧ mk rA rB = i := by
  match bs, h with
  | _ :: _ :: rest, h =>
    obtain ⟨rA, h1, h⟩ := bind_eq_ok_iff.mp h
    obtain ⟨rB, h2, hi⟩ := bind_eq_ok_iff.mp h
    exact ⟨rA, rB, rest, by rw [decodeReg_eq_ok_iff.mp h1, decodeReg_eq_ok_iff.mp h2], Except.ok.inj hi⟩

theorem decodeR_cons_eq_error_iff (mk : RegIdx → Instr) :
    decodeR mk (b1 :: bs) = .error e ↔ 8 ≤ b1.toNat ∧ e = .registerOutOfRange b1 := by
  rw [decodeR, bind_eq_error_iff, decodeReg_eq_error_iff]
  exact or_iff_left (fun ⟨_, _, h⟩ => nomatch h)

theorem decodeRI_cons_eq_error_iff (mk : RegIdx → Byte → Instr) :
    decodeRI mk (b1 :: b2 :: bs) = .error e ↔ 8 ≤ b1.toNat ∧ e = .registerOutOfRange b1 := by
  rw [decodeRI, bind_eq_error_iff, decodeReg_eq_error_iff]
  exact or_iff_left (fun ⟨_, _, h⟩ => nomatch h)

/-- The second register byte is looked at only where the first is one (R84). -/
theorem decodeRR_cons_eq_error_iff (mk : RegIdx → RegIdx → Instr) :
    decodeRR mk (b1 :: b2 :: bs) = .error e ↔
      8 ≤ b1.toNat ∧ e = .registerOutOfRange b1 ∨
      b1.toNat < 8 ∧ 8 ≤ b2.toNat ∧ e = .registerOutOfRange b2 := by
  have hsecond (rA : RegIdx) : (decodeReg b2 >>= fun rB => pure (mk rA rB)) = .error e ↔
      8 ≤ b2.toNat ∧ e = .registerOutOfRange b2 := by
    rw [bind_eq_error_iff, decodeReg_eq_error_iff]
    exact or_iff_left (fun ⟨_, _, h⟩ => nomatch h)
  rw [decodeRR, bind_eq_error_iff, decodeReg_eq_error_iff]
  simp only [hsecond, exists_and_right, exists_decodeReg_eq_ok_iff]

/-- The operand bytes that decode to an instruction are the ones it encodes to (R61, R63, R64). -/
theorem take_eq_operands_of_decodeOperands {o : Op} (h : decodeOperands o bs = .ok i) :
    bs.take o.format.operandCount = i.operands := by
  cases o with
  | hlt => cases h; rfl
  | ldi => obtain ⟨rA, imm8, rest, rfl, rfl⟩ := decodeRI_eq_ok h; rfl
  | mul | cmp => obtain ⟨rA, rB, rest, rfl, rfl⟩ := decodeRR_eq_ok h; rfl
  | _ => obtain ⟨rA, rest, rfl, rfl⟩ := decodeR_eq_ok h; rfl

/-- A row with all its operand bytes there refuses only a register byte of 8 or more, b1 before b2 (R63, R84). -/
theorem decodeOperands_eq_error_iff_of_le {o : Op} (hbs : o.format.operandCount ≤ bs.length) :
    decodeOperands o bs = .error e ↔
      (∃ b1 rest, bs = b1 :: rest ∧ 1 ≤ o.format.operandCount ∧ o.format.operandCount ≤ rest.length + 1 ∧
        8 ≤ b1.toNat ∧ e = .registerOutOfRange b1) ∨
      (∃ b1 b2 rest, bs = b1 :: b2 :: rest ∧ o.format = .f2rr ∧
        b1.toNat < 8 ∧ 8 ≤ b2.toNat ∧ e = .registerOutOfRange b2) := by
  cases o with
  | hlt => simp [decodeOperands, Op.format, Format.operandCount]
  | ldi =>
    match bs, hbs with
    | _ :: _ :: _, _ =>
      rw [exists_cons_eq_iff, exists_cons_cons_eq_iff]
      simp [decodeOperands, decodeRI_cons_eq_error_iff, Op.format, Format.operandCount]
  | mul | cmp =>
    match bs, hbs with
    | _ :: _ :: _, _ =>
      rw [exists_cons_eq_iff, exists_cons_cons_eq_iff]
      simp [decodeOperands, decodeRR_cons_eq_error_iff, Op.format, Format.operandCount]
  | _ =>
    match bs, hbs with
    | _ :: _, _ =>
      rw [exists_cons_eq_iff]
      simp [decodeOperands, decodeR_cons_eq_error_iff, Op.format, Format.operandCount]

/-- Why a row refuses the bytes after its opcode: too few of them, or a register byte of 8 or more (R63, R83, R84). -/
theorem decodeOperands_eq_error_iff {o : Op} :
    decodeOperands o bs = .error e ↔
      (bs.length < o.format.operandCount ∧ e = .missingOperand (bs.length + 1)) ∨
      (∃ b1 rest, bs = b1 :: rest ∧ 1 ≤ o.format.operandCount ∧ o.format.operandCount ≤ rest.length + 1 ∧
        8 ≤ b1.toNat ∧ e = .registerOutOfRange b1) ∨
      (∃ b1 b2 rest, bs = b1 :: b2 :: rest ∧ o.format = .f2rr ∧
        b1.toNat < 8 ∧ 8 ≤ b2.toNat ∧ e = .registerOutOfRange b2) := by
  by_cases hshort : bs.length < o.format.operandCount
  · rw [decodeOperands_of_short hshort]
    refine ⟨fun h => .inl ⟨hshort, (Except.error.inj h).symm⟩, ?_⟩
    rintro (⟨_, rfl⟩ | ⟨b1, rest, rfl, _, henough, _⟩ | ⟨b1, b2, rest, rfl, hrr, _⟩)
    · rfl
    · exact absurd henough (Nat.not_le.mpr hshort)
    · rw [hrr] at hshort
      exact absurd (Nat.le_add_left 2 rest.length) (Nat.not_le.mpr hshort)
  · rw [decodeOperands_eq_error_iff_of_le (Nat.le_of_not_lt hshort), or_iff_right (mt And.left hshort)]

end formats

end Sys2Proof
end

section
/-! PROOF. The encoding: the dispatch table, decode against encode, and what the decoder refuses (R60 to R71). -/

namespace Sys2Proof

/-- The operand bytes of an instruction decode to it whatever follows them (R61). -/
theorem decodeOperands_operands_append (i : Instr) (rest : List Byte) :
    decodeOperands i.op (i.operands ++ rest) = .ok i := by
  rw [← decodeOperands_take, List.take_left' (operands_length i), decodeOperands_operands]

/-- Settles O8: the opcode gives the row, and the row's operands decode whatever follows them. -/
theorem decodeEncode : Obligations.DecodeEncode := by
  intro i rest
  rw [encode, List.cons_append, decode_of_legal (opOf_opcode i.op), decodeOperands_operands_append,
    List.drop_left' (operands_length i)]
  rfl

/-- Settles O9: the opcode byte is the row's, and the operand bytes taken are the instruction's. -/
theorem encodeDecode : Obligations.EncodeDecode := by
  intro bs i rest h
  match bs, h with
  | b :: bs, h =>
    cases ho : opOf b with
    | none => rw [decode_of_illegal ho] at h; cases h
    | some o =>
      rw [decode_of_legal ho] at h
      cases hi : decodeOperands o bs with
      | error e => rw [hi] at h; cases h
      | ok j =>
        rw [hi] at h
        cases h
        rw [encode, List.cons_append, ← take_eq_operands_of_decodeOperands hi, List.take_append_drop,
          op_of_decodeOperands hi, opcode_of_opOf ho]

/-- The decoder refuses a legal opcode exactly where its row refuses the operand bytes (R84). -/
theorem decode_cons_eq_error_iff {b : Byte} {o : Op} (ho : opOf b = some o) {rest : List Byte} {e : DecodeError} :
    decode (b :: rest) = .error e ↔ decodeOperands o rest = .error e := by
  rw [decode_of_legal ho]
  cases decodeOperands o rest <;> simp [Except.map]

/-- Settles O10: no byte, an illegal opcode, or a row that refuses its operand bytes. That the list decoder reports no
opcode byte and a missing operand byte is the model's convention (log entry 15); the register byte and its place in the
order are decisions D7 and D9. -/
theorem decodeRefuses : Obligations.DecodeRefuses := by
  refine fun bs e => ⟨fun h => ?_, ?_⟩
  · match bs, h with
    | [], h => exact .inl ⟨rfl, (Except.error.inj h).symm⟩
    | b :: rest, h =>
      refine .inr ?_
      cases ho : opOf b with
      | none =>
        rw [decode_of_illegal ho] at h
        exact .inl ⟨b, rest, rfl, ho, (Except.error.inj h).symm⟩
      | some o =>
        rw [decode_cons_eq_error_iff ho, decodeOperands_eq_error_iff] at h
        obtain ⟨hshort, he⟩ | ⟨b1, rest, rfl, hone, henough, h1, he⟩ | ⟨b1, b2, rest, rfl, hrr, h1, h2, he⟩ := h
        · exact .inr (.inl ⟨b, rest, o, rfl, ho, hshort, he⟩)
        · exact .inr (.inr (.inl ⟨b, b1, rest, o, rfl, ho, hone, henough, h1, he⟩))
        · exact .inr (.inr (.inr ⟨b, b1, b2, rest, o, rfl, ho, hrr, h1, h2, he⟩))
  · rintro (⟨rfl, rfl⟩ | ⟨b, rest, rfl, ho, rfl⟩ | ⟨b, rest, o, rfl, ho, hshort, he⟩ |
      ⟨b, b1, rest, o, rfl, ho, hone, henough, h1, he⟩ | ⟨b, b1, b2, rest, o, rfl, ho, hrr, h1, h2, he⟩)
    · rfl
    · exact decode_of_illegal ho rest
    · exact (decode_cons_eq_error_iff ho).mpr (decodeOperands_eq_error_iff.mpr (.inl ⟨hshort, he⟩))
    · exact (decode_cons_eq_error_iff ho).mpr
        (decodeOperands_eq_error_iff.mpr (.inr (.inl ⟨b1, rest, rfl, hone, henough, h1, he⟩)))
    · exact (decode_cons_eq_error_iff ho).mpr
        (decodeOperands_eq_error_iff.mpr (.inr (.inr ⟨b1, b2, rest, rfl, hrr, h1, h2, he⟩)))

/-- Settles O6: the look-up is by the whole opcode byte, and each row is read off the table. -/
theorem opcodeTable : Obligations.OpcodeTable := by
  have hcount (b : Byte) (o : Op) (h : opOf b = some o) : o.format.operandCount = b.toNat / 64 := by
    rw [opcode_of_opOf h]
    cases o <;> rfl
  refine ⟨fun b o => ?_, fun o => ?_, hcount, fun b hb => ?_⟩
  · rw [opOf_eq_some_iff]
    cases o <;> simp [Op.opcode]
  · cases o <;> decide
  · rw [Option.eq_none_iff_forall_ne_some]
    intro o ho
    have hlen : 1 + o.format.operandCount ≤ 3 := len_le_three o
    have := hcount b o ho
    omega

/-- Settles O7: each word is the encoding of its instruction. -/
theorem decodeWords : Obligations.DecodeWords :=
  ⟨decodeEncode .hlt [], decodeEncode (.ldi 0 8#8) [], decodeEncode (.cmp 0 1) [], decodeEncode (.jeq 2) [],
    decodeEncode (.pop 7) []⟩

end Sys2Proof
end

section
/-! PROOF. The text format of a program source: what a line is stripped to, which literals parse, and what a line adds
to the image (R72, D19). -/

namespace Sys2Proof.Machine

/-! ## The line without its comment and white space -/

theorem takeWhile_ne_hash {text comment line : List Char} (htext : ∀ c ∈ text, c ≠ '#')
    (hline : line = text ∨ line = text ++ '#' :: comment) : line.takeWhile (fun c => c != '#') = text := by
  have hkept : ∀ c ∈ text, (c != '#') = true := fun c hc => bne_iff_ne.mpr (htext c hc)
  obtain rfl | rfl := hline
  · have h := List.takeWhile_append_of_pos (l₂ := []) hkept
    rwa [List.takeWhile_nil, List.append_nil] at h
  · rw [List.takeWhile_append_of_pos hkept, List.takeWhile_cons_of_neg (by simp), List.append_nil]

theorem dropWhile_append_eq_right {p : Char → Bool} {xs ys : List Char} (hxs : ∀ c ∈ xs, p c = true)
    (hys : ∀ c, ys.head? = some c → p c = false) : (xs ++ ys).dropWhile p = ys := by
  rw [List.dropWhile_append_of_pos hxs]
  cases ys with
  | nil => rfl
  | cons y ys => exact List.dropWhile_cons_of_neg (by simp [hys y rfl])

section strip
variable {lead body tail comment line : List Char}
  (hlead : ∀ c ∈ lead, c.isWhitespace = true) (htail : ∀ c ∈ tail, c.isWhitespace = true)
  (hfirst : ∀ c, body.head? = some c → c.isWhitespace = false)
  (hlast : ∀ c, body.getLast? = some c → c.isWhitespace = false)
include hlead htail hfirst hlast

/-- White space goes from both ends of a body that neither begins nor ends with it; an empty body leaves nothing. -/
theorem trim_eq_body : (((lead ++ body ++ tail).dropWhile Char.isWhitespace).reverse.dropWhile
    Char.isWhitespace).reverse = body := by
  rw [List.append_assoc]
  cases body with
  | nil =>
    have hblank : (lead ++ tail).dropWhile Char.isWhitespace = [] := by
      rw [← List.append_nil (lead ++ tail)]
      exact dropWhile_append_eq_right (fun c hc => (List.mem_append.mp hc).elim (hlead c) (htail c)) nofun
    rw [List.nil_append, hblank]
    rfl
  | cons b bs =>
    have hleft : (lead ++ (b :: bs ++ tail)).dropWhile Char.isWhitespace = b :: bs ++ tail :=
      dropWhile_append_eq_right hlead hfirst
    have hright : (tail.reverse ++ (b :: bs).reverse).dropWhile Char.isWhitespace = (b :: bs).reverse :=
      dropWhile_append_eq_right (fun c hc => htail c (List.mem_reverse.mp hc))
        (fun c hc => hlast c (List.head?_reverse ▸ hc))
    rw [hleft, List.reverse_append, hright, List.reverse_reverse]

/-- A line strips to the body that stands between its white space, before its comment (R72). -/
theorem stripLine_eq_body (hbody : ∀ c ∈ body, c ≠ '#')
    (hline : line = lead ++ body ++ tail ∨ line = lead ++ body ++ tail ++ '#' :: comment) : stripLine line = body := by
  have hwhite {c : Char} (hc : c.isWhitespace = true) : c ≠ '#' :=
    ne_of_apply_ne Char.isWhitespace (by rw [hc]; decide)
  have htext : ∀ c ∈ lead ++ body ++ tail, c ≠ '#' := by
    simp only [List.forall_mem_append]
    exact ⟨⟨fun c hc => hwhite (hlead c hc), hbody⟩, fun c hc => hwhite (htail c hc)⟩
  rw [stripLine, takeWhile_ne_hash htext hline]
  exact trim_eq_body hlead htail hfirst hlast

end strip

/-! ## The literal -/

/-- The character of a binary digit. -/
def digitChar (bit : Bool) : Char := if bit then '1' else '0'

theorem binaryDigit_digitChar (bit : Bool) : binaryDigit (digitChar bit) = some bit := by cases bit <;> rfl

theorem binaryDigit_eq_none {c : Char} (h0 : c ≠ '0') (h1 : c ≠ '1') : binaryDigit c = none := by
  simp [binaryDigit, h0, h1]

theorem digitsValue_append (acc : Nat) (xs ys : List Char) :
    digitsValue acc (xs ++ ys) = (digitsValue acc xs).bind (digitsValue · ys) := by
  induction xs generalizing acc with
  | nil => rfl
  | cons x xs ih =>
    rw [List.cons_append, digitsValue, digitsValue]
    cases binaryDigit x with
    | none => rfl
    | some bit => exact ih _

/-- The first `k` of a byte's eight digits, most significant first, are the value of its high bits (R7). -/
theorem digitsValue_highBits (b : Byte) {k : Nat} (hk : k ≤ 8) :
    digitsValue 0 ((List.range k).map (fun j => digitChar (b.getLsbD (7 - j)))) = some (b.toNat / 2 ^ (8 - k)) := by
  induction k with
  | zero => simp [digitsValue, Nat.div_eq_of_lt b.isLt]
  | succ k ih =>
    have hexp : 8 - k = 7 - k + 1 := by omega
    have hexp' : 8 - (k + 1) = 7 - k := by omega
    rw [List.range_succ, List.map_append, digitsValue_append, ih (by omega), hexp, hexp', Nat.pow_succ,
      ← Nat.div_div_eq_div_mul]
    simp only [List.map_cons, List.map_nil, Option.bind_some, digitsValue, binaryDigit_digitChar,
      BitVec.getLsbD, Nat.toNat_testBit]
    rw [Nat.div_add_mod]

theorem digitsValue_eq_none {cs : List Char} (h : ∃ c ∈ cs, c ≠ '0' ∧ c ≠ '1') (acc : Nat) :
    digitsValue acc cs = none := by
  induction cs generalizing acc with
  | nil => simp at h
  | cons c cs ih =>
    rw [digitsValue]
    cases hc : binaryDigit c with
    | none => rfl
    | some bit =>
      obtain ⟨d, hd, h0, h1⟩ := h
      obtain rfl | hd := List.mem_cons.mp hd
      · rw [binaryDigit_eq_none h0 h1] at hc; cases hc
      · exact ih ⟨d, hd, h0, h1⟩ _

/-- The eight binary digits of a byte, most significant first (R7, R72). -/
def byteDigits (b : Byte) : List Char := (List.range 8).map (fun k => digitChar (b.getLsbD (7 - k)))

theorem isWhitespace_of_mem_byteDigits {b : Byte} {c : Char} (h : c ∈ byteDigits b) : c.isWhitespace = false := by
  obtain ⟨k, _, rfl⟩ := List.mem_map.mp h
  cases b.getLsbD (7 - k) <;> decide

theorem parseLiteral_byteDigits (b : Byte) : parseLiteral (byteDigits b) = some b := by
  have hvalue : digitsValue 0 (byteDigits b) = some (b.toNat / 2 ^ 0) := digitsValue_highBits b (Nat.le_refl 8)
  have hlen : (byteDigits b).length = 8 := by simp [byteDigits]
  simp [parseLiteral, hlen, hvalue]

/-- What is not exactly eight binary digits is no literal (R72, D19). -/
theorem parseLiteral_eq_none {cs : List Char} (h : cs.length ≠ 8 ∨ ∃ c ∈ cs, c ≠ '0' ∧ c ≠ '1') :
    parseLiteral cs = none := by
  obtain hlen | hdigit := h
  · exact if_neg hlen
  · simp [parseLiteral, digitsValue_eq_none hdigit]

/-! ## The line's part of the image -/

section line
variable {line : List Char} (rest : List (List Char)) (n : Nat)

theorem parseLines_of_blank (h : stripLine line = []) : parseLines n (line :: rest) = parseLines (n + 1) rest := by
  rw [parseLines, h]

theorem parseLines_of_literal {b : Byte} (h : parseLiteral (stripLine line) = some b) :
    parseLines n (line :: rest) = (parseLines (n + 1) rest).map (b :: ·) := by
  rw [parseLines]
  cases hs : stripLine line with
  | nil => rw [hs] at h; cases h
  | cons c cs =>
    rw [hs] at h
    simp only [h]
    rfl

theorem parseLines_of_malformed (hne : stripLine line ≠ []) (h : parseLiteral (stripLine line) = none) :
    parseLines n (line :: rest) = .error (.programLoadError (.line n)) := by
  rw [parseLines]
  cases hs : stripLine line with
  | nil => exact absurd hs hne
  | cons c cs =>
    rw [hs] at h
    simp only [h]

end line

/-- Settles O3: the line strips to its body, which is empty, the literal of a byte, or no literal. -/
theorem loaderText : Obligations.LoaderText := by
  intro lead body tail comment rest n hlead htail hbody line hline
  have hstrip (hfirst : ∀ c, body.head? = some c → c.isWhitespace = false)
      (hlast : ∀ c, body.getLast? = some c → c.isWhitespace = false) : stripLine line = body :=
    stripLine_eq_body hlead htail hfirst hlast hbody hline
  refine ⟨?_, ?_, ?_⟩
  · rintro rfl
    exact parseLines_of_blank rest n (hstrip nofun nofun)
  · intro b hb
    have hdigits : body = byteDigits b := hb
    have hsolid (c : Char) (hc : c ∈ body) : c.isWhitespace = false :=
      isWhitespace_of_mem_byteDigits (hdigits ▸ hc)
    have hs : stripLine line = body :=
      hstrip (fun c hc => hsolid c (List.mem_of_head? hc)) (fun c hc => hsolid c (List.mem_of_getLast? hc))
    exact parseLines_of_literal rest n (by rw [hs, hdigits, parseLiteral_byteDigits])
  · intro first last hfirst hlast hfirstSolid hlastSolid hbad
    have hs : stripLine line = body := hstrip (by simp [hfirst, hfirstSolid]) (by simp [hlast, hlastSolid])
    have hne : body ≠ [] := by rintro rfl; cases hfirst
    exact parseLines_of_malformed rest n (hs ▸ hne) (hs ▸ parseLiteral_eq_none hbad)

end Sys2Proof.Machine
end

section
/-! SUPPORT. The pc that the execute phase leaves (R86), and the output history's part in it (R88). -/

namespace Sys2Proof.Machine

/-- A jump, and a branch whose condition holds, goes to the register's value and does nothing else (R86, R140 to R144). -/
theorem effect_of_jump {i : Instr} {s : State} {rA : RegIdx}
    (h : i = .jmp rA ∨ (i = .jeq rA ∧ s.flagE = true) ∨ (i = .jne rA ∧ s.flagE = false)) :
    effect i s = s.jump (s.readReg rA) := by
  obtain rfl | ⟨rfl, hE⟩ | ⟨rfl, hE⟩ := h
  · rfl
  · simp [effect, branchIf, hE]
  · simp [effect, branchIf, hE]

/-- Every other instruction but HLT advances pc by its length, a branch whose condition fails among them (R86). -/
theorem effect_pc_of_no_jump {i : Instr} {s : State} (hhlt : i ≠ .hlt)
    (h : ∀ rA, i ≠ .jmp rA ∧ (i = .jeq rA → s.flagE = false) ∧ (i = .jne rA → s.flagE = true)) :
    (effect i s).pc = (s.advance i.op).pc := by
  cases i with
  | hlt => exact absurd rfl hhlt
  | jmp rA => exact absurd rfl (h rA).1
  | jeq rA => simp [effect, branchIf, (h rA).2.1 rfl, Instr.op]
  | jne rA => simp [effect, branchIf, (h rA).2.2 rfl, Instr.op]
  | _ => rfl

/-- What an instruction appends to the output: PRN alone appends, one register's value (R104, R105). -/
def emitted : Instr → State → List Byte
  | .prn rA, s => [s.readReg rA]
  | _, _ => []

theorem emitted_length_le (i : Instr) (s : State) : (emitted i s).length ≤ 1 := by
  cases i <;> simp [emitted]

theorem branchIf_withOut (taken : Bool) (o : Op) (rA : RegIdx) (s : State) (out : List Byte) :
    branchIf taken o rA { s with out := out } = { branchIf taken o rA s with out := out } := by
  cases taken <;> rfl

/-- After any output history an instruction does the same, and appends the same to it (R88). -/
theorem effect_withOut (i : Instr) (s : State) (out : List Byte) :
    effect i { s with out := out } = { effect i s with out := out ++ emitted i s } := by
  cases i with
  | prn rA => rfl
  | jeq rA => simp only [emitted, List.append_nil]; exact branchIf_withOut ..
  | jne rA => simp only [emitted, List.append_nil]; exact branchIf_withOut ..
  | _ => simp only [emitted, List.append_nil]; rfl

/-- The fetch phases do not read the output (R81 to R84). -/
theorem fetch_withOut (s : State) (out : List Byte) : State.fetch { s with out := out } = s.fetch := rfl

/-- One step after any output history: the same next state, and the same at most one value appended (R88). -/
theorem step_withOut {s : State} (hs : s.status = .running) :
    ∃ (t : State) (added : List Byte), added.length ≤ 1 ∧
      ∀ out, step { s with out := out } = .next { t with out := out ++ added } := by
  cases hf : s.fetch with
  | ok i =>
    refine ⟨effect i s, emitted i s, emitted_length_le i s, fun out => ?_⟩
    rw [← effect_withOut, ← exec_eq_effect]
    exact step_of_fetch (s := { s with out := out }) hs ((fetch_withOut s out).trans hf)
  | error e =>
    refine ⟨s.raise e, [], Nat.zero_le _, fun out => ?_⟩
    rw [List.append_nil]
    exact step_of_fetch_error (s := { s with out := out }) hs ((fetch_withOut s out).trans hf)

end Sys2Proof.Machine
end

section
/-! SUPPORT. Runs: when there is a step, the iterated step, and the run loop (R80, R89, R90). -/

namespace Sys2Proof.Machine

/-- A step exists exactly when the status is Running (R80). -/
theorem running_iff_exists_step {s : State} : s.status = .running ↔ ∃ t, step s = .next t := by
  refine ⟨fun hs => ?_, fun ⟨t, ht⟩ => (step_cases ht).1⟩
  cases hf : s.fetch with
  | ok i => exact ⟨effect i s, (step_of_fetch hs hf).trans (exec_eq_effect i s)⟩
  | error e => exact ⟨s.raise e, step_of_fetch_error hs hf⟩

/-! ## The iterated step -/

/-- After the first step of a run, the rest of the run goes on from there. -/
theorem stepsTo_succ_iff {n : Nat} {s t u : State} (hu : step s = .next u) : stepsTo (n + 1) s t ↔ stepsTo n u t := by
  simp [stepsTo, hu]

/-- Where the step leads back to the state itself, every number of steps does, and to no other state. -/
theorem stepsTo_iff_of_step_self {s : State} (hs : step s = .next s) (n : Nat) (t : State) :
    stepsTo n s t ↔ s = t := by
  induction n with
  | zero => rfl
  | succ n ih => rw [stepsTo_succ_iff hs, ih]

/-- Every state of a run but its last is Running. -/
theorem running_of_stepsTo_of_lt {j k : Nat} {s t u : State} (hk : stepsTo k s t) (hj : stepsTo j s u)
    (hjk : j < k) : u.status = .running := by
  induction k generalizing s j with
  | zero => cases hjk
  | succ k ih =>
    obtain ⟨v, hv, hk⟩ := hk
    cases j with
    | zero =>
      obtain rfl : s = u := hj
      exact running_iff_exists_step.mpr ⟨v, hv⟩
    | succ j => exact ih hk ((stepsTo_succ_iff hv).mp hj) (Nat.lt_of_succ_lt_succ hjk)

/-! ## The run loop -/

theorem runLoop_succ_of_step {s t : State} (h : step s = .next t) (n : Nat) : runLoop (n + 1) s = runLoop n t := by
  simp only [runLoop, h]

/-- The run loop leaves a state that has no step (R80, R89). -/
theorem runLoop_of_not_running {s : State} (hs : s.status ≠ .running) (n : Nat) : runLoop n s = s := by
  cases n with
  | zero => rfl
  | succ n =>
    rw [runLoop]
    split
    next t ht => exact absurd (running_iff_exists_step.mpr ⟨t, ht⟩) hs
    all_goals rfl

/-- The run loop stops at an end of the run, whatever budget is left (R89). -/
theorem runLoop_of_stepsTo {n m : Nat} {s t : State} (h : stepsTo n s t) (ht : t.status ≠ .running) (hnm : n ≤ m) :
    runLoop m s = t := by
  induction n generalizing s m with
  | zero => obtain rfl : s = t := h; exact runLoop_of_not_running ht m
  | succ n ih =>
    obtain ⟨u, hu, h⟩ := h
    obtain ⟨m, rfl⟩ := Nat.exists_eq_add_one_of_ne_zero (Nat.ne_zero_of_lt hnm)
    rw [runLoop_succ_of_step hu, ih h (Nat.le_of_succ_le_succ hnm)]

/-- The run loop is the iterated step, cut short only by a state that is not Running (R89). -/
theorem exists_stepsTo_runLoop (n : Nat) (s : State) :
    ∃ k, k ≤ n ∧ stepsTo k s (runLoop n s) ∧ ((runLoop n s).status = .running → k = n) := by
  induction n generalizing s with
  | zero => exact ⟨0, Nat.le_refl 0, rfl, fun _ => rfl⟩
  | succ n ih =>
    by_cases hs : s.status = .running
    · obtain ⟨t, ht⟩ := running_iff_exists_step.mp hs
      obtain ⟨k, hk, hsteps, hrun⟩ := ih t
      rw [runLoop_succ_of_step ht]
      exact ⟨k + 1, Nat.succ_le_succ hk, (stepsTo_succ_iff ht).mpr hsteps, fun h => congrArg (· + 1) (hrun h)⟩
    · rw [runLoop_of_not_running hs]
      exact ⟨0, Nat.zero_le _, rfl, fun h => absurd h hs⟩

end Sys2Proof.Machine
end

section
/-! PROOF. The engine's step and its runs (R80 to R90). -/

namespace Sys2Proof.Machine

/-- Settles O11: the bytes at pc are fetched as their instruction, and the step is its execution. -/
theorem stepRunsDecoded : Obligations.StepRunsDecoded :=
  fun _ _ hs hholds => step_of_fetch hs (fetch_of_holds hholds)

/-- Settles O12: the fetch and the decoder agree on the bytes from pc. -/
theorem stepAgreesWithDecode : Obligations.StepAgreesWithDecode :=
  fun _ hs => ⟨fun _ _ => step_of_decode hs, fun _ => stepRaises_of_decode hs⟩

/-- Settles O16: a Running engine steps, and the run loop leaves one that does not. -/
theorem stepOnlyWhenRunning : Obligations.StepOnlyWhenRunning := by
  refine fun s => ⟨running_iff_exists_step, fun hs => ⟨step_halted hs, ?_⟩, fun e hs => ⟨step_faulted hs, ?_⟩⟩
  · exact runLoop_of_not_running (by simp [hs])
  · exact runLoop_of_not_running (by simp [hs])

/-- Settles O18: execution answers its effect, and HLT alone writes the status. -/
theorem executeNeverRaises : Obligations.ExecuteNeverRaises := by
  refine fun i s => ⟨effect i s, exec_eq_effect i s, ?_⟩
  split
  next hi => subst hi; rfl
  next hi => exact effect_status hi s

/-- Settles O19: HLT stays, a jump or taken branch goes to the register's value, every other instruction advances. -/
theorem pcRule : Obligations.PcRule := by
  intro i s t hp h
  obtain rfl := exec_eq_next_iff.mp h
  refine ⟨?_, fun rA hjump => ?_, fun ⟨hhlt, hseq⟩ => ⟨?_, effect_pc_le i hp⟩⟩
  · rintro rfl; rfl
  · rw [effect_of_jump hjump, jump_pc_toNat]
  · rw [effect_pc_of_no_jump hhlt hseq, advance_pc_toNat hp, encode_length]

/-- Settles O20: a Running engine steps alike after either history; any other engine has no step to differ. -/
theorem stepIgnoresOutput : Obligations.StepIgnoresOutput := by
  refine fun s out => ⟨fun hs => ?_, fun hs => ?_⟩
  · obtain ⟨t, added, hlen, hstep⟩ := step_withOut hs
    exact ⟨t, added, hlen, hstep s.out, hstep out⟩
  · cases hst : s.status with
    | running => exact absurd hst hs
    | halted => exact (step_halted rfl).trans (step_halted hst).symm
    | faulted e => exact (step_faulted rfl).trans (step_faulted hst).symm

/-- Settles O43: the loop's state is reached by steps, all of whose earlier states are Running. -/
theorem runLoopEnds : Obligations.RunLoopEnds := by
  intro n s
  obtain ⟨k, hk, hsteps, hrun⟩ := exists_stepsTo_runLoop n s
  refine ⟨fun h => hrun h ▸ hsteps, fun hend => ⟨fun m hm => ?_, k, hk, hsteps, fun j u hj hu => ?_⟩⟩
  · exact runLoop_of_stepsTo hsteps hend (Nat.le_trans hk hm)
  · exact running_of_stepsTo_of_lt hsteps hu hj

/-- Settles O44: the run loop with budget enough for both ends stops at each of them. -/
theorem runEndUnique : Obligations.RunEndUnique := by
  have unique {s t u : State} (ht : Reachable s t) (hu : Reachable s u) (htend : t.status ≠ .running)
      (huend : u.status ≠ .running) : t = u := by
    obtain ⟨n, hn⟩ := ht
    obtain ⟨m, hm⟩ := hu
    rw [← runLoop_of_stepsTo hn htend (Nat.le_max_left n m), runLoop_of_stepsTo hm huend (Nat.le_max_right n m)]
  refine ⟨fun s t u => unique, fun s t ⟨ht, hhalted⟩ u e ⟨hu, hfaulted⟩ => ?_⟩
  obtain rfl := unique ht hu (by simp [hhalted]) (by simp [hfaulted])
  rw [hhalted] at hfaulted
  cases hfaulted

/-- Settles O45: the jump's target is the pc it stands at, so the step gives the state itself. -/
theorem selfJumpRunsForever : Obligations.SelfJumpRunsForever := by
  intro s rA hs hholds htarget
  have hpc : (s.jump (s.readReg rA)).pc = s.pc := BitVec.eq_of_toNat_eq ((jump_pc_toNat ..).trans htarget)
  have hself : s.jump (s.readReg rA) = s := congrArg (fun pc => { s with pc := pc }) hpc
  have hstep : step s = .next s := by rw [step_of_fetch hs (fetch_of_holds hholds), exec_jmp, hself]
  refine ⟨fun n => (stepsTo_iff_of_step_self hstep n s).mpr rfl, fun t ⟨n, hn⟩ => ?_⟩
  exact (stepsTo_iff_of_step_self hstep n t).mp hn ▸ hs

end Sys2Proof.Machine
end

section
/-! SUPPORT. How a step at a legal opcode goes, format by format: the range errors, the register error, else the instruction
(R81 to R84, R206). -/

namespace Sys2Proof.Machine

/-- Past the last cell the opcode fetch raises (R81). -/
theorem raisesPastEnd : RaisesPastEnd :=
  fun _ hrun hp => stepRaises_of_fetch hrun (fetch_of_ge hp)

section atOpcode
variable {s : State} {o : Op} (hs : s.AtOpcode o.opcode)
include hs

/-- The first operand byte past the last cell is the one reported (R83). -/
theorem stepRaises_of_missing_operand {k : Nat} (hk : k < o.len) (hend : s.pc.toNat + k = 256) :
    StepRaises s (.outOfRange .memory (s.pc.toNat + k)) := by
  obtain ⟨hrun, hp, hcell⟩ := hs
  obtain ⟨-, -, hlegal⟩ := step_of_opcode hrun hp hcell
  rw [hend]
  exact (hlegal o (opOf_opcode o)).1 (hend ▸ Nat.add_lt_add_left hk _)

/-- With every operand byte in memory, the step is the operand decode's answer (R84). -/
theorem step_of_operands {operands : List Byte} (hfits : s.pc.toNat + o.len ≤ 256)
    (hoperands : operands =
      (List.range o.format.operandCount).map (fun k => s.mem.readCell (s.pc.toNat + 1 + k))) :
    (∀ i, decodeOperands o operands = .ok i → step s = exec i s) ∧
    (∀ e, decodeOperands o operands = .error e → StepRaises s (toError s.pc e)) := by
  obtain ⟨hrun, hp, hcell⟩ := hs
  obtain ⟨-, -, hlegal⟩ := step_of_opcode hrun hp hcell
  exact (hlegal o (opOf_opcode o)).2 hfits operands hoperands

end atOpcode

/-- HLT, the one row of format F0, reads no operand byte (R61, R100). -/
theorem stepF0_hlt : StepF0 0x01#8 .hlt := by
  refine ⟨raisesPastEnd, fun s ⟨hrun, hp, hcell⟩ => ?_⟩
  obtain ⟨-, hhalt, -⟩ := step_of_opcode hrun hp hcell
  exact hhalt rfl

/-- A row of format F1R: the operand's address is checked before its value (R83, R84). -/
theorem stepF1R_of_decodeR {o : Op} {mk : RegIdx → Instr} (hformat : o.format = .f1r)
    (hdecode : ∀ bs, decodeOperands o bs = decodeR mk bs) : StepF1R o.opcode mk := by
  refine ⟨raisesPastEnd, fun s hs => ?_⟩
  have hlt : s.pc.toNat < 256 := hs.2.1
  have hlen : o.len = 2 := by rw [Op.len, hformat]; rfl
  refine ⟨fun hp => stepRaises_of_missing_operand hs (by omega) (by omega), fun hp b1 hb1 => ?_⟩
  obtain ⟨hok, herror⟩ := step_of_operands hs (operands := [b1]) (by omega) (by rw [hformat, ← hb1]; rfl)
  simp only [hdecode] at hok herror
  refine ⟨fun h8 => herror _ ((decodeR_cons_eq_error_iff mk).mpr ⟨h8, rfl⟩), fun rA hA => hok _ ?_⟩
  rw [decodeR, decodeReg_of_val hA]; rfl

/-- A row of format F2RI: both addresses are checked before the register byte; the immediate is any byte (R64, R83, R84). -/
theorem stepF2RI_of_decodeRI {o : Op} {mk : RegIdx → Byte → Instr} (hformat : o.format = .f2ri)
    (hdecode : ∀ bs, decodeOperands o bs = decodeRI mk bs) : StepF2RI o.opcode mk := by
  refine ⟨raisesPastEnd, fun s hs => ?_⟩
  have hlt : s.pc.toNat < 256 := hs.2.1
  have hlen : o.len = 3 := by rw [Op.len, hformat]; rfl
  refine ⟨fun hp => stepRaises_of_missing_operand hs (by omega) (by omega),
    fun hp => stepRaises_of_missing_operand hs (by omega) hp, fun hp b1 b2 hb1 hb2 => ?_⟩
  obtain ⟨hok, herror⟩ := step_of_operands hs (operands := [b1, b2]) (by omega) (by rw [hformat, ← hb1, ← hb2]; rfl)
  simp only [hdecode] at hok herror
  refine ⟨fun h8 => herror _ ((decodeRI_cons_eq_error_iff mk).mpr ⟨h8, rfl⟩), fun rA hA => hok _ ?_⟩
  rw [decodeRI, decodeReg_of_val hA]; rfl

end Sys2Proof.Machine
end

section
/-! SUPPORT. What a step and a run add to the output (R104, R105), and that a step which ends Faulted only raised (R204). -/

namespace Sys2Proof.Machine

/-- An instruction appends what it emits (R31, R105). -/
theorem effect_out (i : Instr) (s : State) : (effect i s).out = s.out ++ emitted i s :=
  congrArg State.out (effect_withOut i s s.out)

theorem emitted_of_not_prn {i : Instr} (hi : ∀ rA, i ≠ .prn rA) (s : State) : emitted i s = [] := by
  cases i with
  | prn rA => exact absurd rfl (hi rA)
  | _ => rfl

/-- The step of a fetched instruction leads to its effect (R87). -/
theorem effect_eq_of_step {s t : State} {i : Instr} (h : step s = .next t) (hi : s.fetch = .ok i) : effect i s = t := by
  rwa [step_of_fetch (step_cases h).1 hi, exec_eq_next_iff] at h

/-- A step that ends Faulted raised that error and did nothing else: no execution changes Running to Faulted (R85, R204). -/
theorem eq_raise_of_step_faulted {s t : State} {e : Error} (h : step s = .next t) (ht : t.status = .faulted e) :
    t = s.raise e := by
  obtain ⟨hrun, ⟨i, -, hexec⟩ | ⟨e', -, rfl⟩⟩ := step_cases h
  · obtain rfl := exec_eq_next_iff.mp hexec
    by_cases hi : i = .hlt
    · subst hi; cases ht
    · rw [effect_status hi, hrun] at ht; cases ht
  · cases ht; rfl

/-- A step appends at most one value (R105). -/
theorem step_out {s t : State} (h : step s = .next t) : ∃ added, t.out = s.out ++ added ∧ added.length ≤ 1 := by
  obtain ⟨u, added, hlen, hstep⟩ := step_withOut (step_cases h).1
  have hu : step s = .next { u with out := s.out ++ added } := hstep s.out
  rw [h] at hu
  cases hu
  exact ⟨added, rfl, hlen⟩

/-- A run only appends, at most one value a step (R105). -/
theorem stepsTo_out {n : Nat} {s t : State} (h : stepsTo n s t) :
    ∃ added, t.out = s.out ++ added ∧ added.length ≤ n := by
  induction n generalizing s with
  | zero => obtain rfl : s = t := h; exact ⟨[], (List.append_nil _).symm, Nat.le_refl 0⟩
  | succ n ih =>
    obtain ⟨u, hstep, hrest⟩ := h
    obtain ⟨first, hfirst, hone⟩ := step_out hstep
    obtain ⟨rest, hout, hlen⟩ := ih hrest
    refine ⟨first ++ rest, by rw [hout, hfirst, List.append_assoc], ?_⟩
    rw [List.length_append]; omega

end Sys2Proof.Machine
end

section
/-! PROOF. HLT, LDI and PRN, and the output (R100 to R105). -/

namespace Sys2Proof.Machine

/-- Settles O17: HLT alone writes the status, so no other instruction enters or leaves Halted. -/
theorem onlyHltHalts : Obligations.OnlyHltHalts := by
  refine ⟨fun i s t h hs ht => ?_, fun s => ⟨s.halt, exec_hlt s, rfl⟩, fun i s t h hs => ?_, fun s t hs h => ?_⟩
  · obtain rfl := exec_eq_next_iff.mp h
    by_cases hi : i = .hlt
    · exact hi
    · exact absurd (effect_status hi s ▸ ht) hs
  · obtain rfl := exec_eq_next_iff.mp h
    by_cases hi : i = .hlt
    · subst hi; rfl
    · rw [effect_status hi, hs]
  · rw [step_halted hs] at h; cases h

/-- Settles O21: execution is `halt`, which writes the status alone. -/
theorem hltHaltsAndKeepsTheRest : Obligations.HltHaltsAndKeepsTheRest :=
  ⟨fun s => ⟨s.halt, exec_hlt s, rfl, rfl, rfl, rfl, fun _ => rfl, fun _ => rfl, step_halted rfl⟩, stepF0_hlt⟩

/-- Settles O22: a write of rA, then the advance. -/
theorem ldiLoadsImmediate : Obligations.LdiLoadsImmediate := by
  refine ⟨fun s rA imm8 => ?_, stepF2RI_of_decodeRI (o := .ldi) rfl fun _ => rfl⟩
  exact ⟨_, exec_ldi s rA imm8, State.readReg_writeReg_self s rA imm8,
    fun r hr => State.readReg_writeReg_ne s hr.symm imm8, rfl, rfl, rfl, fun _ => rfl,
    fun hp => advance_pc_toNat (s := s.writeReg rA imm8) hp .ldi⟩

/-- Settles O23: an emission of rA's value, then the advance. -/
theorem prnAppendsRegister : Obligations.PrnAppendsRegister := by
  refine ⟨fun s rA => ?_, stepF1R_of_decodeR (o := .prn) rfl fun _ => rfl⟩
  exact ⟨_, exec_prn s rA, rfl, fun _ => rfl, rfl, rfl, fun _ => rfl,
    fun hp => advance_pc_toNat (s := s.emit (s.readReg rA)) hp .prn⟩

/-- Settles O39: a step appends what its instruction emits, or raises and appends nothing; a run appends step by step. -/
theorem outputOrder : Obligations.OutputOrder := by
  refine ⟨fun s t rA h hprn => ?_, fun s t h hnot => ?_, fun s t e h hfault => ?_, fun n s t => stepsTo_out⟩
  · exact effect_eq_of_step h hprn ▸ effect_out (.prn rA) s
  · obtain ⟨-, ⟨i, hi, hexec⟩ | ⟨e, -, rfl⟩⟩ := step_cases h
    · obtain rfl := exec_eq_next_iff.mp hexec
      rw [effect_out, emitted_of_not_prn fun rA hA => hnot rA (hA ▸ hi), List.append_nil]
    · rfl
  · rw [eq_raise_of_step_faulted h hfault, State.raise_out]

end Sys2Proof.Machine
end

section
/-! SUPPORT. What the ALU answers and where its answer goes (R120 to R127), and a step at an opcode of format F2RR (R83,
R84). -/

namespace Sys2Proof.Machine

/-- A comparison's bits 7..3 are 0 (R124, D5). -/
theorem compareFlags_getLsbD_of_ge {k : Nat} (hk : 3 ≤ k) (a b : Byte) : (compareFlags a b).getLsbD k = false := by
  have hlt : (compareFlags a b).toNat < 2 ^ 3 := by
    rcases compareFlags_cases a b with h | h | h <;> rw [h] <;> decide
  exact Nat.testBit_lt_two_pow (Nat.lt_of_lt_of_le hlt (Nat.pow_le_pow_right (by decide) hk))

/-- Bit 0 of a comparison is equal, bit 1 greater, bit 2 less, unsigned: one case for each way two values compare (R124). -/
theorem compareFlags_getLsbD_iff (a b : Byte) :
    ((compareFlags a b).getLsbD 0 = true ↔ a = b) ∧ ((compareFlags a b).getLsbD 1 = true ↔ b.toNat < a.toNat) ∧
      ((compareFlags a b).getLsbD 2 = true ↔ a.toNat < b.toNat) := by
  rcases Nat.lt_trichotomy a.toNat b.toNat with h | h | h
  · have hne : a ≠ b := fun hab => Nat.ne_of_lt h (congrArg _ hab)
    simp [compareFlags_lt h, flL, h, hne, Nat.le_of_lt h]
  · obtain rfl := BitVec.eq_of_toNat_eq h
    simp [compareFlags_eq, flE]
  · have hne : a ≠ b := fun hab => Nat.ne_of_gt h (congrArg _ hab)
    simp [compareFlags_gt h, flG, h, hne, Nat.le_of_lt h]

/-- A value goes into the first register (R120). -/
@[simp] theorem State.writeAlu_value (s : State) (rA : RegIdx) (v : Byte) :
    s.writeAlu rA (.value v) = s.writeReg rA v := rfl

/-- What the ALU answers is written, and pc advances (R120). -/
theorem aluExecute_of_alu {s : State} {f : AluSelect} {rA rB : RegIdx} {r : AluResult}
    (h : alu f (s.readReg rA) (s.readReg rB) = .ok r) (o : Op) :
    aluExecute o f rA rB s = .next ((s.writeAlu rA r).advance o) := by
  rw [aluExecute, h]; rfl

/-- The ALU refuses only a select that is none of its four (R127). -/
theorem exists_other_of_alu_error {f : AluSelect} {a b : Byte} {e : Error} (h : alu f a b = .error e) :
    ∃ n, f = .other n := by
  cases f with
  | other n => exact ⟨n, rfl⟩
  | _ => cases h

/-- A row of format F2RR: both addresses are checked before either register byte, and b1 before b2 (R83, R84). -/
theorem stepF2RR_of_decodeRR {o : Op} {mk : RegIdx → RegIdx → Instr} (hformat : o.format = .f2rr)
    (hdecode : ∀ bs, decodeOperands o bs = decodeRR mk bs) : StepF2RR o.opcode mk := by
  refine ⟨raisesPastEnd, fun s hs => ?_⟩
  have hlt : s.pc.toNat < 256 := hs.2.1
  have hlen : o.len = 3 := by rw [Op.len, hformat]; rfl
  refine ⟨fun hp => stepRaises_of_missing_operand hs (by omega) (by omega),
    fun hp => stepRaises_of_missing_operand hs (by omega) hp, fun hp b1 b2 hb1 hb2 => ?_⟩
  obtain ⟨hok, herror⟩ := step_of_operands hs (operands := [b1, b2]) (by omega) (by rw [hformat, ← hb1, ← hb2]; rfl)
  simp only [hdecode] at hok herror
  refine ⟨fun h8 => herror _ ((decodeRR_cons_eq_error_iff mk).mpr (.inl ⟨h8, rfl⟩)),
    fun h1 h8 => herror _ ((decodeRR_cons_eq_error_iff mk).mpr (.inr ⟨h1, h8, rfl⟩)), fun rA rB hA hB => hok _ ?_⟩
  rw [decodeRR, decodeReg_of_val hA, decodeReg_of_val hB]; rfl

end Sys2Proof.Machine
end

section
/-! SUPPORT. Every state of every run of a loaded program meets the invariant (R232, R233). -/

namespace Sys2Proof.Machine

/-- A load writes memory alone (R232). -/
theorem load_ok {s t : State} {image : List Byte} (h : s.load image = .ok t) :
    ∃ m, writeImage 0 s.mem image = .ok m ∧ t = { s with mem := m } := by
  unfold State.load at h
  split at h
  next m hm => exact ⟨m, hm, (Except.ok.inj h).symm⟩
  next => cases h

/-- Every loaded engine meets the invariant: it is the reset state but for its memory, which the load keeps canonical. -/
theorem engineInv_of_boot {image : List Byte} {s : State} (h : boot image = .ok s) : EngineInv s := by
  obtain ⟨m, hm, rfl⟩ := load_ok h
  exact ⟨writeImage_wf hm reset_mem_wf, .inl rfl, Nat.zero_le _, nofun, nofun⟩

/-- A run keeps the invariant, since each of its steps does. -/
theorem engineInv_of_stepsTo {n : Nat} {s t : State} (hs : EngineInv s) (h : stepsTo n s t) : EngineInv t := by
  induction n generalizing s with
  | zero => obtain rfl : s = t := h; exact hs
  | succ n ih =>
    obtain ⟨u, hstep, hrest⟩ := h
    exact ih (invKeptByEveryStep s u hs hstep) hrest

end Sys2Proof.Machine
end

section
/-! PROOF. The ALU, MUL and CMP (R120 to R127). -/

namespace Sys2Proof.Machine

/-- Settles O31: the product's low 8 bits. -/
theorem aluMulLowByte : Obligations.AluMul :=
  fun a b => ⟨aluMul a b, rfl, aluMul_toNat a b⟩

/-- Settles O32: the ALU's sum and difference go into the first register; the two opcodes have no row. -/
theorem aluAddSub : Obligations.AluAddSub := by
  refine ⟨fun a b => ?_, fun s o rA rB => ?_, fun rest => ⟨decode_of_illegal rfl rest, decode_of_illegal rfl rest⟩⟩
  · exact ⟨aluAdd a b, aluSub a b, rfl, aluAdd_toNat a b, rfl, aluSub_toNat a b⟩
  · exact ⟨_, _, aluExecute_of_alu rfl o, aluExecute_of_alu rfl o, rfl, rfl, by simp [aluAdd_toNat],
      by simp [aluSub_toNat]⟩

/-- Settles O33: each flag's bit, and none above them. -/
theorem aluCmp : Obligations.AluCmp := by
  intro a b
  obtain ⟨hequal, hgreater, hless⟩ := compareFlags_getLsbD_iff a b
  exact ⟨compareFlags a b, rfl, hequal, hgreater, hless, fun k hk => compareFlags_getLsbD_of_ge hk a b⟩

/-- Settles O24: a write of rA, then the advance. -/
theorem mulMultipliesModulo256 : Obligations.MulMultipliesModulo256 := by
  refine ⟨fun s rA rB => ?_, stepF2RR_of_decodeRR (o := .mul) rfl fun _ => rfl⟩
  exact ⟨_, exec_mul s rA rB, by simp [aluMul_toNat], fun r hr => State.readReg_writeReg_ne s hr.symm _,
    rfl, rfl, rfl, fun _ => rfl, fun hp => advance_pc_toNat (s := s.writeReg rA _) hp .mul⟩

/-- Settles O25: FL is overwritten with the comparison's value, then the advance. -/
theorem cmpSetsExactlyOneFlag : Obligations.CmpSetsExactlyOneFlag := by
  refine ⟨fun s rA rB => ?_, stepF2RR_of_decodeRR (o := .cmp) rfl fun _ => rfl⟩
  have hequal (h : s.readReg rA = s.readReg rB) : compareFlags (s.readReg rA) (s.readReg rB) = flE :=
    h ▸ compareFlags_eq _
  exact ⟨_, exec_cmp s rA rB, fun h => hequal (BitVec.eq_of_toNat_eq h), compareFlags_gt, compareFlags_lt,
    fun h => hequal (h ▸ rfl), fun _ => rfl, rfl, rfl, fun _ => rfl,
    fun hp => advance_pc_toNat (s := s.writeFl _) hp .cmp⟩

/-- Settles O34: the ALU refuses `other` alone, and the invariant of every run names no error of the ALU. -/
theorem unsupportedAluUnreachable : Obligations.UnsupportedAluUnreachable := by
  refine ⟨fun _ _ _ => rfl, fun _ _ _ _ => exists_other_of_alu_error, fun o n rA rB s => aluExecute_other s rA rB o n,
    fun image s t f hboot ⟨n, hsteps⟩ hfault => ?_⟩
  exact (engineInv_of_stepsTo (engineInv_of_boot hboot) hsteps).errorAt _ hfault

end Sys2Proof.Machine
end

section
/-! SUPPORT. What a conditional jump does when its condition fails and what it leaves alone either way (R140 to R144), and
how long FL stays as a CMP left it (R143). -/

namespace Sys2Proof.Machine

/-- A branch whose condition fails advances pc and does nothing else (R86, R142, R144). -/
theorem effect_of_untaken_branch {i : Instr} {s : State} {rA : RegIdx}
    (h : (i = .jeq rA ∧ s.flagE = false) ∨ (i = .jne rA ∧ s.flagE = true)) : effect i s = s.advance i.op := by
  obtain ⟨rfl, hE⟩ | ⟨rfl, hE⟩ := h
  · simp [effect, branchIf, hE, Instr.op]
  · simp [effect, branchIf, hE, Instr.op]

/-- Taken or not, a branch changes pc alone (R142, R144). -/
theorem branchIf_frame (taken : Bool) (o : Op) (rA : RegIdx) (s : State) :
    (∀ r, (branchIf taken o rA s).readReg r = s.readReg r) ∧ (branchIf taken o rA s).fl = s.fl ∧
      (branchIf taken o rA s).out = s.out ∧ (branchIf taken o rA s).status = s.status ∧
      ∀ a, (branchIf taken o rA s).mem.readCell a = s.mem.readCell a :=
  ⟨fun r => readReg_branchIf taken o rA r s, branchIf_fl .., branchIf_out .., branchIf_status ..,
    fun _ => by rw [branchIf_mem]⟩

/-- A step that runs no CMP leaves FL as it was, whether it executes an instruction or raises (R28, R204). -/
theorem step_fl {s t : State} (h : step s = .next t) (hcmp : ∀ rA rB, s.fetch ≠ .ok (.cmp rA rB)) : t.fl = s.fl := by
  obtain ⟨-, ⟨i, hi, hexec⟩ | ⟨e, -, rfl⟩⟩ := step_cases h
  · obtain rfl := exec_eq_next_iff.mp hexec
    refine effect_fl ?_ s
    cases i with
    | cmp rA rB => exact absurd hi (hcmp rA rB)
    | _ => exact nofun
  · exact State.raise_fl s e

/-- A run that runs no CMP leaves FL as it was (R143). -/
theorem stepsTo_fl {n : Nat} {s t : State} (h : stepsTo n s t)
    (hcmp : ∀ k u rA rB, k < n → stepsTo k s u → u.fetch ≠ .ok (.cmp rA rB)) : t.fl = s.fl := by
  induction n generalizing s with
  | zero => obtain rfl : s = t := h; rfl
  | succ n ih =>
    obtain ⟨u, hstep, hrest⟩ := h
    have hfirst : u.fl = s.fl := step_fl hstep fun rA rB => hcmp 0 s rA rB (Nat.succ_pos n) rfl
    have hlater : t.fl = u.fl := ih hrest fun k v rA rB hk hv =>
      hcmp (k + 1) v rA rB (Nat.succ_lt_succ hk) ((stepsTo_succ_iff hstep).mpr hv)
    exact hlater.trans hfirst

end Sys2Proof.Machine
end

section
/-! PROOF. JMP, JEQ and JNE, and the FL they read (R140 to R144). -/

namespace Sys2Proof.Machine

/-- Settles O26: execution is `jump`, which writes pc alone and reads no flag. -/
theorem jmpGoesToRegister : Obligations.JmpGoesToRegister := by
  refine ⟨fun s rA => ?_, fun s rA v => ?_, stepF1R_of_decodeR (o := .jmp) rfl fun _ => rfl⟩
  · exact ⟨_, exec_jmp s rA, jump_pc_toNat s _, fun _ => rfl, rfl, rfl, rfl, fun _ => rfl⟩
  · exact ⟨_, exec_jmp s rA, exec_jmp (s.writeFl v) rA⟩

/-- Settles O27: a jump where E is set, an advance where it is clear. -/
theorem jeqBranchesWhenEqual : Obligations.JeqBranchesWhenEqual := by
  refine ⟨fun s rA => ⟨effect (.jeq rA) s, exec_jeq s rA, fun hE => ?_, fun hE hp => ?_, branchIf_frame ..⟩,
    stepF1R_of_decodeR (o := .jeq) rfl fun _ => rfl⟩
  · rw [effect_of_jump (.inr (.inl ⟨rfl, hE⟩)), jump_pc_toNat]
  · rw [effect_of_untaken_branch (.inl ⟨rfl, hE⟩)]
    exact advance_pc_toNat hp .jeq

/-- Settles O28: a jump where E is clear, an advance where it is set. -/
theorem jneBranchesWhenNotEqual : Obligations.JneBranchesWhenNotEqual := by
  refine ⟨fun s rA => ⟨effect (.jne rA) s, exec_jne s rA, fun hE => ?_, fun hE hp => ?_, branchIf_frame ..⟩,
    stepF1R_of_decodeR (o := .jne) rfl fun _ => rfl⟩
  · rw [effect_of_jump (.inr (.inr ⟨rfl, hE⟩)), jump_pc_toNat]
  · rw [effect_of_untaken_branch (.inr ⟨rfl, hE⟩)]
    exact advance_pc_toNat hp .jne

/-- Settles O36: no step but a CMP's writes FL, and in an FL of 0 the bit E is clear. -/
theorem flagsKeptUntilCmp : Obligations.FlagsKeptUntilCmp := by
  refine ⟨fun n s t => stepsTo_fl, fun s rA hfl => ?_⟩
  have hE : s.flagE = false := by rw [State.flagE, hfl]; rfl
  refine ⟨effect (.jeq rA) s, effect (.jne rA) s, exec_jeq s rA, exec_jne s rA, ?_, ?_⟩
  · rw [effect_of_untaken_branch (.inl ⟨rfl, hE⟩)]; rfl
  · rw [effect_of_jump (.inr (.inr ⟨rfl, hE⟩)), jump_pc_toNat]

end Sys2Proof.Machine
end

section
/-! SUPPORT. The stack as PUSH and POP see it: the stack pointer, the byte it points at, and what each leaves in the
registers (R160 to R164). -/

namespace Sys2Proof.Machine

/-- The byte the stack pointer points at, which is the one a POP takes (R162). -/
def State.stackTop (s : State) : Byte := s.mem.readCell s.sp.toNat

/-- POP's data access (R162): it never raises, since the stack pointer is a byte (R41). -/
theorem memRead_sp (s : State) : memRead s.mem s.sp.toNat = .ok s.stackTop :=
  memRead_of_lt (BitVec.isLt s.sp) s.mem

/-- R7 is the stack pointer (R21). -/
theorem readReg_seven (s : State) : s.readReg 7 = s.sp := rfl

/-! ## PUSH -/

section push
variable (rA : RegIdx) (s : State)

/-- PUSH decrements the stack pointer modulo 256, R7 as the operand included (R160, D3). -/
@[simp] theorem sp_effect_push : (effect (.push rA) s).sp = s.sp - 1#8 := State.sp_decSp s

/-- A PUSH writes no register but the stack pointer (R160). -/
theorem readReg_effect_push_ne {r : RegIdx} (hr : r ≠ 7) : (effect (.push rA) s).readReg r = s.readReg r :=
  effect_readReg (by simpa [regWrites] using hr) s

/-- What a PUSH puts on top of the stack: for R7 the new stack pointer (R160, R161, D6). -/
theorem stackTop_effect_push :
    (effect (.push rA) s).stackTop = if rA = 7 then (effect (.push rA) s).sp else s.readReg rA := by
  have htop : (effect (.push rA) s).stackTop = s.decSp.readReg rA :=
    (readCell_effect_push rA s _).trans (if_pos rfl)
  exact htop.trans (readReg_decSp s rA)

/-- The cell a PUSH writes is not the one the stack pointer points at before it (R160). -/
theorem pushAddr_ne_sp : s.sp.toNat ≠ pushAddr s := by
  rw [pushAddr_eq]; bv_omega

end push

/-! ## POP -/

section pop
variable {rA : RegIdx} (s : State)

/-- POP R7 increments the popped byte (R163, D6). -/
theorem sp_effect_pop_sp : (effect (.pop 7) s).sp = s.stackTop + 1#8 :=
  (State.sp_incSp _).trans (congrArg (· + 1#8) (State.readReg_writeReg_self s 7 _))

/-- POP of another register increments the stack pointer modulo 256 (R162, D3). -/
theorem sp_effect_pop (hA : rA ≠ 7) : (effect (.pop rA) s).sp = s.sp + 1#8 :=
  (State.sp_incSp _).trans (congrArg (· + 1#8) (sp_writeReg_ne hA))

/-- POP of another register than R7 leaves the popped byte in it (R162). -/
theorem readReg_effect_pop_self (hA : rA ≠ 7) : (effect (.pop rA) s).readReg rA = s.stackTop :=
  (State.readReg_writeReg_ne _ hA.symm _).trans (State.readReg_writeReg_self s rA _)

/-- A POP writes no register but its operand and the stack pointer (R162). -/
theorem readReg_effect_pop_ne {r : RegIdx} (hrA : r ≠ rA) (hr : r ≠ 7) :
    (effect (.pop rA) s).readReg r = s.readReg r :=
  effect_readReg (by simp [regWrites, hrA, hr]) s

/-- A POP writes no memory (R162). -/
@[simp] theorem effect_pop_mem : (effect (.pop rA) s).mem = s.mem := rfl

end pop

/-! ## A PUSH and the POP that takes its byte -/

/-- A POP of any register after a PUSH of any other than R7 takes the stack pointer back up (R164). -/
theorem sp_pop_push {c : RegIdx} (hc : c ≠ 7) (b : RegIdx) (s : State) :
    (effect (.pop c) (effect (.push b) s)).sp = s.sp := by
  rw [sp_effect_pop _ hc, sp_effect_push, BitVec.sub_add_cancel]

/-- A PUSH and the POP after it leave the byte on top of the stack as it was: the PUSH writes the cell below (R164). -/
theorem stackTop_pop_push {c : RegIdx} (hc : c ≠ 7) (b : RegIdx) (s : State) :
    (effect (.pop c) (effect (.push b) s)).stackTop = s.stackTop := by
  rw [State.stackTop, sp_pop_push hc, effect_pop_mem, readCell_effect_push, if_neg (pushAddr_ne_sp s), State.stackTop]

/-- A POP of another register than R7 takes the value that a PUSH of another than R7 has put there (R164). -/
theorem readReg_pop_push {b c : RegIdx} (hb : b ≠ 7) (hc : c ≠ 7) (s : State) :
    (effect (.pop c) (effect (.push b) s)).readReg c = s.readReg b := by
  rw [readReg_effect_pop_self _ hc, stackTop_effect_push, if_neg hb]

/-- PUSH R7 stores the decremented stack pointer, and POP R7 increments it again (R164, D6). -/
theorem sp_pop_push_sp (s : State) : (effect (.pop 7) (effect (.push 7) s)).sp = s.sp := by
  rw [sp_effect_pop_sp, stackTop_effect_push, if_pos rfl, sp_effect_push, BitVec.sub_add_cancel]

/-- PUSH and POP of one register give every register its old value (R164). -/
theorem readReg_pop_push_same (rA r : RegIdx) (s : State) :
    (effect (.pop rA) (effect (.push rA) s)).readReg r = s.readReg r := by
  by_cases hr : r = 7
  · subst hr
    by_cases hA : rA = 7
    · subst hA; exact sp_pop_push_sp s
    · exact sp_pop_push hA rA s
  · by_cases hrA : r = rA
    · subst hrA; exact readReg_pop_push hr hr s
    · rw [readReg_effect_pop_ne _ hrA hr, readReg_effect_push_ne rA s hr]

end Sys2Proof.Machine
end

section
/-! PROOF. PUSH and POP, and how they pair (R160 to R164). -/

namespace Sys2Proof.Machine

/-- Settles O29: the decrement, the write of the cell it then points at, and the advance. -/
theorem pushStoresBelowStackPointer : Obligations.PushStoresBelowStackPointer := by
  refine ⟨fun s rA => ?_, stepF1R_of_decodeR (o := .push) rfl fun _ => rfl⟩
  refine ⟨effect (.push rA) s, exec_eq_effect _ s, ?_, fun r => readReg_effect_push_ne rA s, rfl, ?_, fun a ha => ?_,
    rfl, rfl, rfl, fun hp => advance_pc_toNat hp .push⟩
  · rw [readReg_seven, readReg_seven, sp_effect_push]
    exact aluSub_toNat s.sp 1#8
  · rw [readReg_seven, ← stackTop_effect_push]
    exact memRead_sp (effect (.push rA) s)
  · rw [readCell_effect_push, if_neg ha]

/-- Settles O30: the write of the popped byte, the increment after it, and the advance. -/
theorem popLoadsAtStackPointer : Obligations.PopLoadsAtStackPointer := by
  refine ⟨fun s rA => ?_, stepF1R_of_decodeR (o := .pop) rfl fun _ => rfl⟩
  refine ⟨effect (.pop rA) s, s.stackTop, exec_eq_effect _ s, memRead_sp s,
    fun hA => ⟨readReg_effect_pop_self s hA, ?_⟩, ?_, fun r => readReg_effect_pop_ne s, fun _ => rfl, rfl, rfl, rfl,
    fun hp => advance_pc_toNat hp .pop⟩
  · rw [readReg_seven, readReg_seven, sp_effect_pop s hA]
    exact BitVec.toNat_add s.sp 1#8
  · rintro rfl
    rw [readReg_seven, sp_effect_pop_sp]
    exact BitVec.toNat_add s.stackTop 1#8

/-- Settles O41: POP takes the byte PUSH stored and moves the stack pointer back; memory is PUSH's. -/
theorem pushPopRoundTrip : Obligations.PushPopRoundTrip := by
  refine fun s rA => ⟨effect (.push rA) s, effect (.pop rA) (effect (.push rA) s), exec_eq_effect _ s,
    exec_eq_effect _ _, fun r => readReg_pop_push_same rA r s, rfl, rfl, rfl, fun a ha => ?_⟩
  rw [effect_pop_mem, readCell_effect_push, if_neg ha]

/-- Settles O42: the inner PUSH and POP leave the stack as the first PUSH made it, for the last POP to take. -/
theorem stackLastInFirstOut : Obligations.StackLastInFirstOut := by
  intro s a b c d ha hb hc hd
  refine ⟨_, _, _, _, exec_eq_effect _ s, exec_eq_effect _ _, exec_eq_effect _ _, exec_eq_effect _ _,
    fun hcd => ?_, ?_, ?_⟩
  · rw [readReg_effect_pop_ne _ hcd hc, readReg_pop_push hb hc, readReg_effect_push_ne a s hb]
  · rw [readReg_effect_pop_self _ hd, stackTop_pop_push hc, stackTop_effect_push, if_neg ha]
  · rw [readReg_seven, sp_effect_pop _ hd, sp_pop_push hc, sp_effect_push, BitVec.sub_add_cancel, readReg_seven]

end Sys2Proof.Machine
end

section
/-! SUPPORT. How a step at any legal opcode takes its operand bytes, said once for all formats (R84, R206), and the codes of
the errors that a state's pc can be in (R200). -/

namespace Sys2Proof

/-- Only a format without operands has no operand byte to check (R61). -/
theorem operandCount_pos_iff {f : Format} : 1 ≤ f.operandCount ↔ f ≠ .f0 := by
  cases f <;> decide

/-- No row has more than two operand bytes (R9, R61). -/
theorem operandCount_le_two (f : Format) : f.operandCount ≤ 2 := by
  cases f <;> decide

/-- Two bytes are enough for any row, so it refuses them only for a register byte of 8 or more, b1 before b2 (R84). -/
theorem decodeOperands_pair_eq_error_iff {o : Op} {b1 b2 : Byte} {e : DecodeError} :
    decodeOperands o [b1, b2] = .error e ↔
      o.format ≠ .f0 ∧ 8 ≤ b1.toNat ∧ e = .registerOutOfRange b1 ∨
      o.format = .f2rr ∧ b1.toNat < 8 ∧ 8 ≤ b2.toNat ∧ e = .registerOutOfRange b2 := by
  have hcount : o.format.operandCount ≤ 2 := operandCount_le_two o.format
  rw [decodeOperands_eq_error_iff_of_le hcount, exists_cons_eq_iff, exists_cons_cons_eq_iff, operandCount_pos_iff]
  simp [hcount]

/-- A row accepts two bytes whose register operands are all below 8 (R63, R84). -/
theorem exists_decodeOperands_pair_eq_ok {o : Op} {b1 b2 : Byte}
    (h : o.format = .f0 ∨ (b1.toNat < 8 ∧ (o.format = .f2rr → b2.toNat < 8))) :
    ∃ i, decodeOperands o [b1, b2] = .ok i := by
  cases hd : decodeOperands o [b1, b2] with
  | ok i => exact ⟨i, rfl⟩
  | error e =>
    obtain ⟨hne, h8, -⟩ | ⟨hrr, h1, h8, -⟩ := decodeOperands_pair_eq_error_iff.mp hd
    · obtain h0 | ⟨hlt, -⟩ := h
      · exact absurd h0 hne
      · exact absurd hlt (Nat.not_lt.mpr h8)
    · obtain h0 | ⟨-, hlt⟩ := h
      · exact nomatch hrr.symm.trans h0
      · exact absurd (hlt hrr) (Nat.not_lt.mpr h8)

namespace Machine

/-- With every operand byte in memory, the step is the operand decode's answer to the two cells after pc, of which a row
takes as many as its format has (R61, R84). -/
theorem step_of_operand_pair {s : State} {o : Op} (hs : s.AtOpcode o.opcode)
    (hfits : s.pc.toNat + o.format.operandCount < 256) {b1 b2 : Byte}
    (hb1 : s.mem.readCell (s.pc.toNat + 1) = b1) (hb2 : s.mem.readCell (s.pc.toNat + 2) = b2) :
    (∀ i, decodeOperands o [b1, b2] = .ok i → step s = exec i s) ∧
    (∀ e, decodeOperands o [b1, b2] = .error e → StepRaises s (toError s.pc e)) := by
  have hlen : s.pc.toNat + o.len ≤ 256 := by unfold Op.len; omega
  have htake : [b1, b2].take o.format.operandCount =
      (List.range o.format.operandCount).map (fun k => s.mem.readCell (s.pc.toNat + 1 + k)) := by
    rw [← hb1, ← hb2]; cases o.format <;> rfl
  have hstep := step_of_operands hs hlen htake
  rwa [decodeOperands_take] at hstep

/-- An error that names what stands at pc is OutOfRange or IllegalInstruction (R201, R202). -/
theorem code_of_errorAt {s : State} {e : Error} (h : ErrorAt s e) : e.code = 1 ∨ e.code = 2 := by
  cases e with
  | outOfRange => exact .inl rfl
  | illegalInstruction => exact .inr rfl
  | unsupportedALUOp => exact h.elim
  | programLoadError => exact h.elim

end Machine

end Sys2Proof
end

section
/-! PROOF. The errors of a step and of a run (R200 to R206). -/

namespace Sys2Proof.Machine

/-- Settles O14: a step goes through the opcode fetch, the look-up, the operand fetch and the operand decode, in this
order (R206, decision D9). -/
theorem errorPriority : Obligations.ErrorPriority := by
  refine ⟨fun s hrun => ⟨raisesPastEnd s hrun, fun hp opcode hcell => ⟨?_, fun o ho => ?_⟩⟩, fun s hs hpc _ => ?_⟩
  · exact (step_of_opcode hrun hp hcell).1
  · have hs : s.AtOpcode o.opcode := ⟨hrun, hp, hcell.trans (opcode_of_opOf ho)⟩
    refine ⟨fun k _ hk => stepRaises_of_missing_operand hs (by unfold Op.len; omega), fun hfits b1 b2 hb1 hb2 => ?_⟩
    obtain ⟨hok, herror⟩ := step_of_operand_pair hs hfits hb1 hb2
    refine ⟨fun hne h8 => herror _ (decodeOperands_pair_eq_error_iff.mpr (.inl ⟨hne, h8, rfl⟩)),
      fun hrr h1 h8 => herror _ (decodeOperands_pair_eq_error_iff.mpr (.inr ⟨hrr, h1, h8, rfl⟩)), fun hregs => ?_⟩
    obtain ⟨i, hi⟩ := exists_decodeOperands_pair_eq_ok hregs
    exact ⟨i, op_of_decodeOperands hi, hok i hi⟩
  · have hend : s.pc.toNat + 2 = 256 := by omega
    exact hend ▸ stepRaises_of_missing_operand (o := .mul) hs (by decide) hend

/-- Settles O15: only raising the error leads a step to Faulted, and only a Running engine steps (decision D8). -/
theorem faultWritesOnlyStatus : Obligations.FaultWritesOnlyStatus :=
  fun _ _ _ h ht => ⟨eq_raise_of_step_faulted h ht, (step_cases h).1⟩

/-- Settles O51: the load meets the invariant, every step keeps it, and it names no error of another code (decision D10). -/
theorem invHoldsOnEveryRun : Obligations.InvHoldsOnEveryRun := by
  intro image s t hboot ⟨n, hsteps⟩
  have hinv : EngineInv t := engineInv_of_stepsTo (engineInv_of_boot hboot) hsteps
  exact ⟨hinv, fun e hfault => code_of_errorAt (hinv.errorAt e hfault)⟩

end Sys2Proof.Machine
end

section
/-! SUPPORT. What memory reads after bytes are written at consecutive addresses, by the load (R41, R232) and by
`withFetchWord` (log entry 8). -/

namespace Sys2Proof.Machine

/-- From address `a` on, memory reads as the placed bytes as far as they go, and elsewhere as before. -/
theorem readCell_placeBytes (a : Nat) {b : Nat} (hb : b < 256) (m : Memory) (bs : List Byte) :
    (placeBytes a m bs).readCell b = if a ≤ b then bs.getD (b - a) (m.readCell b) else m.readCell b := by
  induction bs generalizing a m with
  | nil => simp [placeBytes]
  | cons x bs ih =>
    have hcell : (if a < Config.memSize then m.writeCell a x else m).readCell b =
        if a = b then x else m.readCell b := by
      split
      next => exact readCell_writeCell a b x m
      next ha => exact (if_neg fun hab : a = b => ha (hab ▸ hb)).symm
    rw [placeBytes, ih, hcell]
    obtain hlt | rfl | hgt := Nat.lt_trichotomy a b
    · have hsub : b - a = b - (a + 1) + 1 := by omega
      rw [if_pos (show a + 1 ≤ b from hlt), if_neg (Nat.ne_of_lt hlt), if_pos (Nat.le_of_lt hlt), hsub,
        List.getD_cons_succ]
    · rw [if_neg (Nat.not_succ_le_self a), if_pos rfl, if_pos (Nat.le_refl a), Nat.sub_self, List.getD_cons_zero]
    · rw [if_neg (by omega), if_neg (Nat.ne_of_gt hgt), if_neg (Nat.not_le_of_lt hgt)]

/-- Bytes that end at or before the last cell are all written (R40, R232). -/
theorem writeImage_of_le {a : Nat} {bs : List Byte} (h : a + bs.length ≤ 256) (m : Memory) :
    writeImage a m bs = .ok (placeBytes a m bs) := by
  induction bs generalizing a m with
  | nil => rfl
  | cons b bs ih =>
    rw [List.length_cons] at h
    have ha : a < 256 := by omega
    rw [writeImage, memWrite_of_lt ha, placeBytes, if_pos ha]
    exact ih (by omega) _

/-- Bytes that run past the last cell meet the range check at address 256 (R40). -/
theorem writeImage_of_gt {a : Nat} {bs : List Byte} (ha : a ≤ 256) (h : 256 < a + bs.length) (m : Memory) :
    writeImage a m bs = .error (.outOfRange .memory 256) := by
  induction bs generalizing a m with
  | nil => exact absurd h (Nat.not_lt.mpr ha)
  | cons b bs ih =>
    rw [List.length_cons] at h
    obtain hlt | rfl := Nat.lt_or_eq_of_le ha
    · rw [writeImage, memWrite_of_lt hlt]
      exact ih hlt (by omega) _
    · rw [writeImage, memWrite_of_ge (Nat.le_refl 256)]
      rfl

/-- An image that fits memory is loaded from address 0 into the reset state (R232, R233). -/
theorem boot_of_le {image : List Byte} (h : image.length ≤ 256) :
    boot image = .ok { State.reset with mem := placeBytes 0 State.reset.mem image } := by
  rw [boot, State.load, writeImage_of_le (by omega)]

/-- An image longer than memory is refused (R218, R232). -/
theorem boot_of_gt {image : List Byte} (h : 256 < image.length) :
    boot image = .error (.programLoadError (.imageLength image.length)) := by
  rw [boot, State.load, writeImage_of_gt (by omega) (by omega)]

/-- The empty image leaves the reset state as it is (R232). -/
theorem boot_nil : boot [] = .ok State.reset := rfl

/-- The decoder reads a word of the table from its bytes. -/
theorem decode_of_decodeTableWord {nbits w : Nat} {i : Instr} (h : decodeTableWord nbits w = some i) :
    ∃ rest, decode (wordBytes nbits w) = .ok (i, rest) := by
  unfold decodeTableWord at h
  split at h
  next j rest hj => exact ⟨rest, Option.some.inj h ▸ hj⟩
  next => cases h

/-- An instruction's word placed at pc stands there, with room for the longest instruction before the last cell
(log entry 8). -/
theorem holds_withFetchWord {s : State} {nbits w : Nat} {i : Instr} (hp : s.pc.toNat ≤ 253)
    (h : decodeTableWord nbits w = some i) : (s.withFetchWord nbits w).Holds i := by
  obtain ⟨rest, hdecode⟩ := decode_of_decodeTableWord h
  have hbytes : wordBytes nbits w = encode i ++ rest := encodeDecode _ i rest hdecode
  have hlen : (encode i).length ≤ 3 := encode_length i ▸ len_le_three i.op
  refine ⟨Nat.add_le_add hp hlen, fun k hk => ?_⟩
  change (placeBytes s.pc.toNat s.mem (wordBytes nbits w)).readCell (s.pc.toNat + k) = (encode i)[k]
  rw [readCell_placeBytes _ (by omega), if_pos (Nat.le_add_right _ k), Nat.add_sub_cancel_left, hbytes,
    List.getD_eq_getElem?_getD, List.getElem?_append_left hk, List.getElem?_eq_getElem hk, Option.getD_some]

end Sys2Proof.Machine
end

section
/-! PROOF. Reset, the load, and a placed word (R230, R232; log entry 8). -/

namespace Sys2Proof.Machine

/-- Settles O1: the elements of the reset state are read off; no memory cell is listed. -/
theorem resetState : Obligations.ResetState :=
  ⟨by decide, rfl, rfl, rfl, fun _ ha => memRead_of_lt ha _, rfl, rfl⟩

/-- Settles O2: an image that fits is placed over unwritten cells, and a longer one meets the range check; after the
empty image the byte at pc 0 is 0x00, which is no opcode. -/
theorem loadImage : Obligations.LoadImage := by
  refine ⟨fun image hfits => ?_, fun image => boot_of_gt, State.reset, boot_nil, ?_⟩
  · refine ⟨_, boot_of_le hfits, fun a ha => ?_, rfl, rfl, rfl, rfl, rfl⟩
    rw [memRead_of_lt ha, readCell_placeBytes 0 ha, if_pos (Nat.zero_le a)]
    rfl
  · exact stepRaises_of_fetch rfl (fetch_of_illegal (by decide) (by decide))

/-- Settles O13: the decoded word is the instruction whose bytes stand at pc, and the step runs it. -/
theorem fetchWordRuns : Obligations.FetchWordRuns :=
  fun _ _ _ _ hrun hp hword => stepRunsDecoded _ _ hrun (holds_withFetchWord hp hword)

/-- Settles O48: reset is the engine loaded with the empty image. -/
theorem invHoldsAtReset : Obligations.InvHoldsAtReset :=
  engineInv_of_boot boot_nil

/-- Settles O49: a load writes memory alone and keeps its canonical form. -/
theorem invHoldsAfterLoad : Obligations.InvHoldsAfterLoad :=
  fun _ _ => engineInv_of_boot

end Sys2Proof.Machine
end
